-- ==== Sys2Proof/Word.lean ====
section
/-! DEFINITION. The word types of enigma_core: codes, letters, slots, tables and the three port words. -/

namespace Sys2Proof

/-- A 5-bit code as it stands in a command word or in `rot_i` (R12, R73): any of 0..31. -/
abbrev Code := BitVec 5

/-- A letter is its index, a natural number below 26 (R13): `A` is 0, `Z` is 25. -/
abbrev Letter := Fin 26

/-- A rotor slot (R16): 0 fast, 1 middle, 2 slow. -/
abbrev Slot := Fin 3

/-- A wiring table: entry `i` is the output letter for input contact `i` (R30, R50). -/
abbrev Table := Vector Letter 26

/-- The command word `cmd[19:0]` (R70). -/
abbrev CmdWord := BitVec 20

/-- The rotor operand word `rot_i[134:0]` (R76). -/
abbrev RotWord := BitVec 135

/-- The response word `rsp[7:0]` (R77). -/
abbrev RspWord := BitVec 8

end Sys2Proof
end

