-- ==== Sys2Proof/Config.lean ====
section
/-! DEFINITION. What an implementation fixes and the spec leaves open. Neither constant has a body: nothing can be
proved about its value. The parameters the spec fixes (R10, R11) are the widths and ranges of Word.lean. -/

namespace Sys2Proof

/-- `LATENCY` (R11, R226, R231, D23): cycles from command accept to response, any natural number, possibly one
per command. The only open parameter of the spec; no meaning depends on it. -/
opaque Config.latency : CmdWord → Nat

/-- Which accented vowels the host folds (R222); the source lists none, and no set may be assumed (N21). It is asked
about accented vowels only (`accentedVowel?`) and concerns the host's text only: the core sees letter codes. -/
opaque Config.foldsAccent : Char → Bool

end Sys2Proof
end

