-- ==== Sys2Proof/Syntax.lean ====
section
/-! DEFINITION. The eight commands of ENIGMA-CMD version 1 with their raw operands, the opcodes and the four formats. -/

namespace Sys2Proof

/-- One rotor definition as `rot_i` carries it (R76): 26 candidate entries `T[i]` and a candidate notch `n`.
Any code 0..31 may stand in any field; `LDROT` checks them. -/
structure RotorDef where
  entries : Vector Code 26
  notch : Code
  deriving DecidableEq, Repr

/-- The commands (R72), one constructor per row of the opcode table. Operands are the fields of the
command word as they stand (R73), and for `LDROT` also the rotor definition sampled from `rot_i`. -/
inductive Instr where
  | nop
  | ldrot (r : BitVec 2) (rot : RotorDef)
  | setw (f m s : Code)
  | step
  | enc (c : Code)
  | dec (c : Code)
  | xfme (c : Code)
  | xfmd (c : Code)
  deriving DecidableEq, Repr

/-- The opcodes that are not reserved (R72). -/
inductive Op where
  | nop | ldrot | setw | step | enc | dec | xfme | xfmd
  deriving DecidableEq, Repr

/-- The four command formats (R71). -/
inductive Format where
  /-- no operand -/
  | n
  /-- rotor slot -/
  | r
  /-- window -/
  | w
  /-- letter -/
  | l
  deriving DecidableEq, Repr

/-- Why a command word is not a command: the first three steps of R78. -/
inductive Reject where
  /-- step 1: `cmd[19]` is 1 (R75) -/
  | reservedOpcode
  /-- step 2: a reserved payload bit is 1 (R74) -/
  | reservedBits
  /-- step 3: `LDROT` with `r` = 3 (R73) -/
  | noSuchSlot
  deriving DecidableEq, Repr

end Sys2Proof
end

