-- ==== Sys2Proof/WellFormed.lean ====
section
/-! DEFINITION. Which terms of `Instr` are commands. -/

namespace Sys2Proof

/-- A term is a command unless it is `LDROT` with slot number 3 (R73, R78 step 3). Letter codes 26..31 are
legal fields of a command: the command's own rule refuses them (R78 step 4). -/
def Instr.wellFormed : Instr → Bool
  | .ldrot r _ => r != 3
  | .nop | .setw _ _ _ | .step | .enc _ | .dec _ | .xfme _ | .xfmd _ => true

end Sys2Proof
end

