-- ==== Sys2Proof/Decode.lean ====
section
/-! DEFINITION. The decoder, total on every 20-bit word (R78), and after it the encoder (R71, R72, R76). -/

namespace Sys2Proof

/-- The opcode map (R72). -/
def opcode : Op → BitVec 4
  | .nop => 0x0
  | .ldrot => 0x1
  | .setw => 0x2
  | .step => 0x3
  | .enc => 0x4
  | .dec => 0x5
  | .xfme => 0x6
  | .xfmd => 0x7

/-- The command an opcode names; none for the reserved opcodes 0x8 to 0xF (R75). -/
def opOf? (b : BitVec 4) : Option Op :=
  [Op.nop, .ldrot, .setw, .step, .enc, .dec, .xfme, .xfmd].find? (fun o => opcode o == b)

/-- Each command has exactly one format (R71). -/
def formatOf : Op → Format
  | .nop | .step => .n
  | .ldrot => .r
  | .setw => .w
  | .enc | .dec | .xfme | .xfmd => .l

/-- The bits of the command word that a format marks "zero (reserved, must be 0)" (R71, R74). -/
def reservedMask : Format → CmdWord
  | .n => 0x0FFFF
  | .r => 0x0FFFC
  | .w => 0x08000
  | .l => 0x0FFE0

/-- Entry `i` of the rotor operand word is at bits `[5i+4 : 5i]`, the notch code at bits 134:130 (R76). -/
def unpackRotor (w : RotWord) : RotorDef where
  entries := Vector.ofFn fun i => w.extractLsb' (5 * i.val) 5
  notch := w.extractLsb' 130 5

/-- The operand fields of a command word whose opcode is `o` (R71, R73); `rot_i` is looked at by `LDROT` only
(R70). -/
def fieldsOf (o : Op) (cmd : CmdWord) (rotI : RotWord) : Instr :=
  match o with
  | .nop => .nop
  | .ldrot => .ldrot (cmd.extractLsb' 0 2) (unpackRotor rotI)
  | .setw => .setw (cmd.extractLsb' 0 5) (cmd.extractLsb' 5 5) (cmd.extractLsb' 10 5)
  | .step => .step
  | .enc => .enc (cmd.extractLsb' 0 5)
  | .dec => .dec (cmd.extractLsb' 0 5)
  | .xfme => .xfme (cmd.extractLsb' 0 5)
  | .xfmd => .xfmd (cmd.extractLsb' 0 5)

/-- Decoding (R78), its four steps in order. Whether a word is a command depends on the command word alone. -/
def decode (cmd : CmdWord) (rotI : RotWord) : Except Reject Instr :=
  match opOf? (cmd.extractLsb' 16 4) with
  | none => .error .reservedOpcode
  | some o =>
    if cmd &&& reservedMask (formatOf o) ≠ 0 then .error .reservedBits
    else if (fieldsOf o cmd rotI).wellFormed then .ok (fieldsOf o cmd rotI)
    else .error .noSuchSlot

/-- The instruction this decoder reads from a word of the opcode table, bit 0 the least significant bit of the
command word, `rot_i` all zeros. A word that does not fit the 20-bit port is no command word. -/
def decodeTableWord (nbits w : Nat) : Option Instr :=
  if w % 2 ^ nbits < 2 ^ 20 then (decode (BitVec.ofNat 20 (w % 2 ^ nbits)) 0).toOption else none

/-! The encoder. -/

/-- The opcode name of a command. -/
def opOf : Instr → Op
  | .nop => .nop
  | .ldrot _ _ => .ldrot
  | .setw _ _ _ => .setw
  | .step => .step
  | .enc _ => .enc
  | .dec _ => .dec
  | .xfme _ => .xfme
  | .xfmd _ => .xfmd

/-- The payload `cmd[15:0]`, its reserved bits zero (R71). -/
def payloadOf : Instr → BitVec 16
  | .nop | .step => 0
  | .ldrot r _ => (0 : BitVec 14) ++ r
  | .setw f m s => (0 : BitVec 1) ++ s ++ m ++ f
  | .enc c | .dec c | .xfme c | .xfmd c => (0 : BitVec 11) ++ c

/-- A table of codes packed with entry `i` at bits `[5i+4 : 5i]` (R55, R76). -/
def packTable (t : Vector Code 26) : BitVec 130 :=
  (List.finRange 26).foldl (fun (acc : BitVec 130) i => acc ||| (t[i].setWidth 130).shiftLeft (5 * i.val)) 0

/-- A rotor definition as the word on `rot_i` (R76). -/
def packRotor (d : RotorDef) : RotWord := d.notch ++ packTable d.entries

/-- The command word of a command (R71, R72). -/
def encodeCmd (i : Instr) : CmdWord := opcode (opOf i) ++ payloadOf i

/-- The word on `rot_i` beside it. DESIGN CHOICE (safe, log entry 11): zeros for every command but `LDROT`,
which alone looks at the port. -/
def encodeRot : Instr → RotWord
  | .ldrot _ rot => packRotor rot
  | .nop | .setw _ _ _ | .step | .enc _ | .dec _ | .xfme _ | .xfmd _ => 0

/-- What the host presents for a command: the command word and the rotor operand word. -/
def encode (i : Instr) : CmdWord × RotWord := (encodeCmd i, encodeRot i)

end Sys2Proof
end

