-- ==== Sys2Proof/Machine/State.lean ====
section
/-! DEFINITION. The state of enigma_core as plain data, its reset value, and the reasons a step can stop. -/

namespace Sys2Proof.Machine

/-- A loaded rotor: its forward wiring table (R30) and its notch letter (R29). -/
structure Rotor where
  wiring : Table
  notch : Letter
  deriving DecidableEq, Repr

/-- The position triple (R21): `pos[0]` fast, `pos[1]` middle, `pos[2]` slow. -/
structure Triple where
  fast : Letter
  middle : Letter
  slow : Letter
  deriving DecidableEq, Repr

/-- The seven errors (R180, R181). -/
inductive Err where
  | invalidWiring
  | invalidWindowSetting
  | incompleteMachine
  | invalidNotch
  | invalidLetter
  | windowNotSet
  | illegalCommand
  deriving DecidableEq, Repr

/-- A status: `OK` or an error (R181). -/
inductive Status where
  | ok
  | err (e : Err)
  deriving DecidableEq, Repr

/-- A response (R77): its status and its letter field. -/
structure Response where
  status : Status
  letter : Letter
  deriving DecidableEq, Repr

/-- The input pins at a rising clock edge at which `cmd_ready` is 1 (R38). -/
structure Edge where
  rst : Bool
  cmdValid : Bool
  cmd : CmdWord
  rotI : RotWord
  deriving DecidableEq, Repr

/-- The three things the host is assumed never to do (R225). -/
inductive Breach where
  /-- it presents a command without waiting for `cmd_ready` -/
  | notReady
  /-- it changes `cmd` or `rot_i` while `cmd_valid` is 1 and the command is not yet accepted -/
  | changedBeforeAccepted
  /-- it drives the port from two sources at once -/
  | twoDrivers
  deriving DecidableEq, Repr

/-- What the host does at the port in one transaction (R217, R225). -/
inductive HostMove where
  /-- a rising edge with the core ready: reset, a command, or nothing, as the pins say (R38, R210, R226) -/
  | edge (e : Edge)
  /-- a command is accepted and `rst` is sampled high before its response (R211) -/
  | resetInFlight (cmd : CmdWord) (rotI : RotWord)
  /-- the handshake is broken (R225) -/
  | breach (b : Breach)
  deriving DecidableEq, Repr

/-- The state. `slots`, `pos` and `rsp` are the spec's (R20, R36, R37); `host` is the model's own field: the
inputs of the steps to come (R27, R34; log entry 2). `rv[r]` is "slot `r` is present", `pv` is "`pos` is
present" (R36). -/
structure State where
  /-- the three rotor slots: `wiring[r]` and `notch[r]`, present when `rv[r]` is 1 (R25) -/
  slots : Vector (Option Rotor) 3
  /-- the position triple, present when `pv` is 1 (R24) -/
  pos : Option Triple
  /-- the response port: present when `rsp_valid` is 1 (R38) -/
  rsp : Option Response
  /-- what the host does next, first move first -/
  host : List HostMove
  deriving DecidableEq, Repr

/-- The state right after reset (R36, R37): no rotor, no window, no response pending. The host's moves are no
state of the machine: none are listed (log entry 2). -/
def State.reset : State where
  slots := #v[none, none, none]
  pos := none
  rsp := none
  host := []

/-- Nothing stops this machine with a fault: an error is a response (R180, R190). Log entry 15. -/
inductive Fault where
  deriving DecidableEq, Repr

/-- Why a step can have no meaning. -/
inductive Refusal where
  /-- raised by `exec`'s arm of an instruction that has no meaning yet; safe -/
  | notModelled (mnemonic : String)
  /-- raised by a step whose host move breaks the handshake (R225: "a model gives them no move");
  unsafe: U11 calls it the one place that errs toward proving (log entry 7) -/
  | handshakeBroken (b : Breach)
  /-- raised by `DEC` and `XFMD` when a slot's table is no permutation (U3: "the model's `invert` takes only
  validated tables"); no reachable state holds such a table (R30); safe -/
  | invertOfUnvalidatedTable
  deriving DecidableEq, Repr

/-- The outcome of a command or of a step. -/
abbrev Outcome := Host.Outcome State Fault Refusal

end Sys2Proof.Machine
end

