-- ==== Sys2Proof/Machine/Arith.lean ====
section
/-! DEFINITION. Arithmetic modulo 26 on letters and positions (R14). No other arithmetic exists in the hardware. -/

namespace Sys2Proof.Machine

/-- `add26` (R14). -/
def add26 (a b : Letter) : Letter :=
  if h : a.val + b.val < 26 then ⟨a.val + b.val, h⟩ else ⟨a.val + b.val - 26, by omega⟩

/-- `sub26` (R14): the least non-negative residue. -/
def sub26 (a b : Letter) : Letter :=
  if h : b.val ≤ a.val then ⟨a.val - b.val, by omega⟩ else ⟨a.val + 26 - b.val, by omega⟩

/-- `inc26` (R14): 25 goes to 0. -/
def inc26 (a : Letter) : Letter := add26 a 1

end Sys2Proof.Machine
end

