-- ==== Sys2Proof/Machine/Flags.lean ====
section
/-! DEFINITION. The flag bits `rv` and `pv` (R24, R25, R28), machine complete (R26), and the two carry conditions of
one step (R121), which are combinational and stored nowhere. -/

namespace Sys2Proof.Machine

/-- `rv[r]`, slot valid (R25). -/
def State.rv (s : State) (r : Slot) : Bool := s.slots[r].isSome

/-- `pv`, window valid (R24). -/
def State.pv (s : State) : Bool := s.pos.isSome

/-- Machine complete (R26). -/
def State.complete (s : State) : Bool := s.rv 0 && s.rv 1 && s.rv 2

/-- `carry_to_slow` on the pre-advance middle position (R121). -/
def carryToSlow (m nm : Letter) : Bool := m == nm

/-- `carry_to_middle` on the pre-advance positions (R121). -/
def carryToMiddle (f m nf nm : Letter) : Bool := f == nf || carryToSlow m nm

end Sys2Proof.Machine
end

