-- ==== Sys2Proof/Machine/Operands.lean ====
section
/-! DEFINITION. The operand forms: what the fields of a command mean (R13, R73). -/

namespace Sys2Proof.Machine

/-- The letter a code stands for; a code 26..31 is not a letter (R13). -/
def letterOfCode? (c : Code) : Option Letter :=
  if h : c.toNat < 26 then some ⟨c.toNat, h⟩ else none

/-- The 5-bit code of a letter (R13). -/
def letterCode (x : Letter) : Code := BitVec.ofNat 5 x.val

/-- The slot a slot number names; 3 is no slot (R73). -/
def slotOf? (r : BitVec 2) : Option Slot :=
  if h : r.toNat < 3 then some ⟨r.toNat, h⟩ else none

/-- The triple a window setting names: `f`, `m`, `s` onto fast, middle, slow (R73, R160); none when one of the
three is not a letter. -/
def windowOf? (f m s : Code) : Option Triple :=
  match letterOfCode? f, letterOfCode? m, letterOfCode? s with
  | some x, some y, some z => some ⟨x, y, z⟩
  | _, _, _ => none

/-- The table of letters that 26 codes spell, when every one is a letter. -/
def lettersOf? (t : Vector Code 26) : Option Table :=
  if h : ∀ i : Fin 26, t[i].toNat < 26 then some (Vector.ofFn fun i => ⟨t[i].toNat, h i⟩) else none

/-- A position triple as the 15-bit word `{slow, middle, fast}` of the ports (R38, R127). -/
def packTriple (p : Triple) : BitVec 15 := letterCode p.slow ++ letterCode p.middle ++ letterCode p.fast

/-- The numeric status codes (R181). -/
def statusCode : Status → BitVec 3
  | .ok => 0
  | .err .invalidWiring => 1
  | .err .invalidWindowSetting => 2
  | .err .incompleteMachine => 3
  | .err .invalidNotch => 4
  | .err .invalidLetter => 5
  | .err .windowNotSet => 6
  | .err .illegalCommand => 7

/-- The response word `{st[2:0], L[4:0]}` (R77). -/
def responseWord (r : Response) : RspWord := statusCode r.status ++ letterCode r.letter

end Sys2Proof.Machine
end

