-- ==== Sys2Proof/Machine/Permutation.lean ====
section
/-! DEFINITION. The permutation utilities: `validate`, its hardware form, and `invert` (R100 to R104). -/

namespace Sys2Proof.Machine

/-- `validate` of a candidate wiring of any length (R101). -/
def validate (w : List Code) : Bool :=
  w.length == 26 && (List.finRange 26).all fun j => w.any fun c => c == letterCode j

/-- `validate_hw` of the 26 codes of `rot_i` (R104): each letter occurs exactly once. -/
def validateHw (t : Vector Code 26) : Bool :=
  (List.finRange 26).all fun j => (List.finRange 26).countP (fun i => t[i] == letterCode j) == 1

/-- The table `LDROT` loads: that of a candidate that passes `validate_hw`. Every entry of such a candidate is a
letter (R104). -/
def wiringOf? (t : Vector Code 26) : Option Table :=
  if validateHw t then lettersOf? t else none

/-- The scan of the source's procedure (R102): the first contact `i` with `w[i]` = `j`. -/
def scan (w : Table) (j : Letter) : Option Letter :=
  (List.finRange 26).find? fun i => w[i] == j

/-- `invert` (R102): entry `j` is the `i` with `w[i]` = `j`. It takes only tables in which every letter occurs
(U3), that is permutations. -/
def invert? (w : Table) : Option Table :=
  if h : ∀ j : Letter, (scan w j).isSome then some (Vector.ofFn fun j => (scan w j).get (h j)) else none

end Sys2Proof.Machine
end

