-- ==== Sys2Proof/Machine/Ops.lean ====
section
/-! DEFINITION. The named operations over the table store, the position register and the response port, and the checks
every command shares. -/

namespace Sys2Proof.Machine

/-- The three rotors of a complete machine. -/
structure Rotors where
  fast : Rotor
  middle : Rotor
  slow : Rotor
  deriving DecidableEq, Repr

/-- Three tables to pass a letter through. -/
structure Tables where
  fast : Table
  middle : Table
  slow : Table
  deriving DecidableEq, Repr

/-- `respond(st, L)` (R15, R77): the response is on the port. -/
def respond (st : Status) (l : Letter) (s : State) : State := { s with rsp := some ⟨st, l⟩ }

/-- `raise <Error>`, taking an error (R180, R190): the command is annulled and the response carries the status
code and letter field 0. Nothing is saved and there is nothing to return to (R190, R192). -/
def raise (e : Err) (s : State) : State := respond (.err e) 0 s

/-- `TblRead(r, i)` (R52), with its precondition `rv[r]` = 1: none where the slot holds no rotor. -/
def tblRead? (s : State) (r : Slot) (i : Letter) : Option Letter := s.slots[r].map fun rot => rot.wiring[i]

/-- `InvRead(r, j)` (R53): entry `j` of the inverse of `wiring[r]`. -/
def invRead? (s : State) (r : Slot) (j : Letter) : Option Letter :=
  s.slots[r].bind fun rot => (invert? rot.wiring).map fun v => v[j]

/-- `TblWrite(r, T)` with `notch[r] <- n` and `rv[r] <- 1` (R54, R105): the slot holds the whole new rotor. -/
def loadSlot (r : Slot) (rot : Rotor) (s : State) : State := { s with slots := s.slots.set r (some rot) }

/-- `pv <- 0` (R24): the triple holds no value. -/
def clearWindow (s : State) : State := { s with pos := none }

/-- The position triple is written and `pv` is 1 (R21, R24). -/
def setTriple (p : Triple) (s : State) : State := { s with pos := some p }

/-- The rotors of the machine when it is complete (R26). -/
def rotorsOf? (s : State) : Option Rotors :=
  match s.slots[0], s.slots[1], s.slots[2] with
  | some a, some b, some c => some ⟨a, b, c⟩
  | _, _, _ => none

/-- The forward tables of the three slots. -/
def forwardTables (m : Rotors) : Tables := ⟨m.fast.wiring, m.middle.wiring, m.slow.wiring⟩

/-- The inverse tables of the three slots, computed from the forward ones (R32). -/
def inverseTables? (m : Rotors) : Option Tables :=
  match invert? m.fast.wiring, invert? m.middle.wiring, invert? m.slow.wiring with
  | some a, some b, some c => some ⟨a, b, c⟩
  | _, _, _ => none

/-- The check "if not (rv[0] and rv[1] and rv[2]): raise IncompleteMachine" (R185), then `k` with the rotors. -/
def whenComplete (s : State) (k : Rotors → Outcome) : Outcome :=
  match rotorsOf? s with
  | none => .next (raise .incompleteMachine s)
  | some m => k m

/-- The check "if pv == 0: raise WindowNotSet" (R187), then `k` with the triple. -/
def whenWindow (s : State) (k : Triple → Outcome) : Outcome :=
  match s.pos with
  | none => .next (raise .windowNotSet s)
  | some p => k p

/-- The check "if c >= 26: raise InvalidLetter" (R186), then `k` with the letter. -/
def whenLetter (c : Code) (s : State) (k : Letter → Outcome) : Outcome :=
  match letterOfCode? c with
  | none => .next (raise .invalidLetter s)
  | some x => k x

/-- The checks of a letter command after decoding, in the order of R193. -/
def whenReady (c : Code) (s : State) (k : Rotors → Triple → Letter → Outcome) : Outcome :=
  whenComplete s fun m => whenWindow s fun p => whenLetter c s fun x => k m p x

/-- `k` with the three inverse tables; a table that is no permutation is refused (R102, U3; log entry 8). -/
def withInverses (m : Rotors) (k : Tables → Outcome) : Outcome :=
  match inverseTables? m with
  | none => .refused .invertOfUnvalidatedTable
  | some t => k t

end Sys2Proof.Machine
end

