-- ==== Sys2Proof/Machine/Stepping.lean ====
section
/-! DEFINITION. The stepping family: `advance` and STEP. -/

namespace Sys2Proof.Machine

/-- `advance` (R121): both carries on the pre-advance positions, then the three new positions together (R122). -/
def advance (p : Triple) (nf nm : Letter) : Triple where
  fast := inc26 p.fast
  middle := if carryToMiddle p.fast p.middle nf nm then inc26 p.middle else p.middle
  slow := if carryToSlow p.middle nm then inc26 p.slow else p.slow

/-- The triple after one step of a machine with these rotors: `notch[0]` and `notch[1]` are read (R125). -/
def advanceBy (m : Rotors) (p : Triple) : Triple := advance p m.fast.notch m.middle.notch

/-- `STEP` (R128). -/
def execStep (s : State) : Outcome :=
  whenComplete s fun m => whenWindow s fun p => .next (respond .ok 0 (setTriple (advanceBy m p) s))

end Sys2Proof.Machine
end

