-- ==== Sys2Proof/Machine/Transform.lean ====
section
/-! DEFINITION. The transform family: the rotor pass, `transform` in both directions, XFME and XFMD. -/

namespace Sys2Proof.Machine

/-- One rotor pass (R141). -/
def rotorPass (idx p : Letter) (w : Table) : Letter := sub26 w[add26 idx p] p

/-- `transform_enc` (R142): fast, middle, slow through the forward tables. -/
def transformEnc (c : Letter) (p : Triple) (t : Tables) : Letter :=
  rotorPass (rotorPass (rotorPass c p.fast t.fast) p.middle t.middle) p.slow t.slow

/-- `transform_dec` (R143): slow, middle, fast through the inverse tables `t`. -/
def transformDec (c : Letter) (p : Triple) (t : Tables) : Letter :=
  rotorPass (rotorPass (rotorPass c p.slow t.slow) p.middle t.middle) p.fast t.fast

/-- `XFME c` (R148): the current triple, no step. -/
def execXfme (c : Code) (s : State) : Outcome :=
  whenReady c s fun m p x => .next (respond .ok (transformEnc x p (forwardTables m)) s)

/-- `XFMD c` (R149): as `XFME` with `transform_dec`. -/
def execXfmd (c : Code) (s : State) : Outcome :=
  whenReady c s fun m p x => withInverses m fun t => .next (respond .ok (transformDec x p t) s)

end Sys2Proof.Machine
end

