-- ==== Sys2Proof/Machine/Driver.lean ====
section
/-! DEFINITION. The driver family: SETW, ENC, DEC and NOP. -/

namespace Sys2Proof.Machine

/-- `SETW f, m, s` (R161): one bad letter annuls the whole command. -/
def execSetw (f m s : Code) (st : State) : Outcome :=
  whenComplete st fun _ =>
    match windowOf? f m s with
    | none => .next (raise .invalidWindowSetting st)
    | some p => .next (respond .ok 0 (setTriple p st))

/-- `ENC c` (R163): advance, then transform at the post-advance triple. -/
def execEnc (c : Code) (s : State) : Outcome :=
  whenReady c s fun m p x =>
    .next (respond .ok (transformEnc x (advanceBy m p) (forwardTables m)) (setTriple (advanceBy m p) s))

/-- `DEC c` (R164): advance as `ENC` does, then `transform_dec` at the post-advance triple. -/
def execDec (c : Code) (s : State) : Outcome :=
  whenReady c s fun m p x => withInverses m fun t =>
    .next (respond .ok (transformDec x (advanceBy m p) t) (setTriple (advanceBy m p) s))

/-- `NOP` (R166): responds `OK` in every state and changes nothing. -/
def execNop (s : State) : Outcome := .next (respond .ok 0 s)

end Sys2Proof.Machine
end

