-- ==== Sys2Proof/Machine/RotorLoad.lean ====
section
/-! DEFINITION. The permutation family: LDROT. -/

namespace Sys2Proof.Machine

/-- `LDROT r` with the rotor definition of `rot_i` (R105): the checks first, in the order IllegalCommand,
InvalidWiring, InvalidNotch; then the slot is loaded as a whole and `pv` is cleared. -/
def execLdrot (r : BitVec 2) (rot : RotorDef) (s : State) : Outcome :=
  match slotOf? r with
  | none => .next (raise .illegalCommand s)
  | some k =>
    match wiringOf? rot.entries with
    | none => .next (raise .invalidWiring s)
    | some w =>
      match letterOfCode? rot.notch with
      | none => .next (raise .invalidNotch s)
      | some n => .next (respond .ok 0 (clearWindow (loadSlot k ⟨w, n⟩ s)))

end Sys2Proof.Machine
end

