-- ==== Sys2Proof/Machine/Dispatch.lean ====
section
/-! DEFINITION. The one match from commands to their meanings. -/

namespace Sys2Proof.Machine

def exec (i : Instr) (s : State) : Host.Outcome State Fault Refusal :=
  match i with
  | .nop => Sys2Proof.Machine.execNop s
  | .ldrot r rot => Sys2Proof.Machine.execLdrot r rot s
  | .setw f m w => Sys2Proof.Machine.execSetw f m w s
  | .step => Sys2Proof.Machine.execStep s
  | .enc c => Sys2Proof.Machine.execEnc c s
  | .dec c => Sys2Proof.Machine.execDec c s
  | .xfme c => Sys2Proof.Machine.execXfme c s
  | .xfmd c => Sys2Proof.Machine.execXfmd c s

end Sys2Proof.Machine
end

