-- ==== Sys2Proof/Machine/Port.lean ====
section
/-! DEFINITION. The command port: how one move of the host is served, how a command is presented, and what the outputs
show (R38, R39, R210, R211, R226). -/

namespace Sys2Proof.Machine

/-- The reset state (R37, R210). It does not depend on the state before; what the host does next is no state of
the machine. -/
def resetCore (s : State) : State := { State.reset with host := s.host }

/-- An edge at which nothing is accepted: the state holds (R204), and the response strobe is over (R38: "for one
cycle"). -/
def holdState (s : State) : State := { s with rsp := none }

/-- An accepted command: decoded and executed (R78); a word that is no command raises `IllegalCommand` (R188). -/
def runCommand (cmd : CmdWord) (rotI : RotWord) (s : State) : Outcome :=
  match decode cmd rotI with
  | .ok i => exec i s
  | .error _ => .next (raise .illegalCommand s)

/-- One clock edge with the core ready: `rst` wins over everything else (R210), else a valid command is accepted
(R226), else nothing happens (R196). DESIGN CHOICE (unsafe, log entry 25): a word presented while `rst` is high is not
accepted, and the next edge may bring another; by R225's words that may be a change before acceptance. -/
def runEdge (e : Edge) (s : State) : Outcome :=
  if e.rst then .next (resetCore s)
  else if e.cmdValid then runCommand e.cmd e.rotI s
  else .next (holdState s)

/-- One move of the host. A command in flight at reset is abandoned, with no response (R211); a broken handshake
has no move (R225). -/
def runMove (m : HostMove) (s : State) : Outcome :=
  match m with
  | .edge e => runEdge e s
  | .resetInFlight _ _ => .next (resetCore s)
  | .breach b => .refused (.handshakeBroken b)

/-- The core serves the host's next move; when the host has none it holds its state. -/
def serve (s : State) : Outcome :=
  match s.host with
  | [] => .next (holdState s)
  | m :: rest => runMove m { s with host := rest }

/-- The pins that present a command word and a rotor operand word, `rst` low. -/
def presentWords (cmd : CmdWord) (rotI : RotWord) : HostMove :=
  .edge { rst := false, cmdValid := true, cmd := cmd, rotI := rotI }

/-- The pins that present a command. -/
def present (i : Instr) : HostMove := presentWords (encode i).1 (encode i).2

/-- The pins that hold reset for one edge. -/
def pressReset : HostMove := .edge { rst := true, cmdValid := false, cmd := 0, rotI := 0 }

/-- The host presents the word of an opcode-table row as its next move, `rot_i` zero. A word wider than the port
cannot be presented. -/
def withTableWord (s : State) (nbits w : Nat) : State :=
  if w % 2 ^ nbits < 2 ^ 20 then
    { s with host := presentWords (BitVec.ofNat 20 (w % 2 ^ nbits)) 0 :: s.host }
  else s

/-- The output pins (R38). -/
structure Outputs where
  cmdReady : Bool
  rspValid : Bool
  rsp : RspWord
  rvO : BitVec 3
  pvO : BitVec 1
  winO : BitVec 15
  deriving DecidableEq, Repr

/-- The outputs between two commands (R39), whatever the inputs are. `freeRsp` and `freeWin` are free values: what `rsp` shows while
`rsp_valid` is 0, and `win_o` while `pv` is 0, is unspecified (R38, U7; log entry 5); a statement about them holds
for every value of both. DESIGN CHOICE (unsafe, log entry 20): `cmd_ready` is 1 already in the cycle that presents the
response, which R226 leaves open, and while `rst` is 1, where R210 only says to ignore it; no statement speaks of it. -/
def outputs (s : State) (freeRsp : RspWord) (freeWin : BitVec 15) : Outputs where
  cmdReady := true
  rspValid := s.rsp.isSome
  rsp := match s.rsp with
    | some r => responseWord r
    | none => freeRsp
  rvO := BitVec.ofBool (s.rv 2) ++ BitVec.ofBool (s.rv 1) ++ BitVec.ofBool (s.rv 0)
  pvO := BitVec.ofBool s.pv
  winO := match s.pos with
    | some p => packTriple p
    | none => freeWin

/-- The outputs while a command is in flight that takes the state `old` to `new` (R39, R226, U8): `cmd_ready` is low, no
response is presented, and each status output shows the old or the new state's value. Which one is a free value
for each (`freeRv`, `freePv`, `freeWinNew`). -/
def outputsInFlight (old new : State) (freeRv freePv freeWinNew : Bool) (freeRsp : RspWord) (freeWin : BitVec 15) :
    Outputs where
  cmdReady := false
  rspValid := false
  rsp := freeRsp
  rvO := (outputs (if freeRv then new else old) freeRsp freeWin).rvO
  pvO := (outputs (if freePv then new else old) freeRsp freeWin).pvO
  winO := (outputs (if freeWinNew then new else old) freeRsp freeWin).winO

/-- The edge at which the response of a command accepted at edge `t` is presented (R226). -/
def responseEdge (cmd : CmdWord) (t : Nat) : Nat := t + Config.latency cmd

end Sys2Proof.Machine
end

