-- ==== Sys2Proof/Machine/Step.lean ====
section
/-! DEFINITION. One step: one command with its response (R198, R231). -/

namespace Sys2Proof.Machine

/-- One step of the machine: the core serves the host's next move. -/
def step (s : State) : Host.Outcome State Fault Refusal := serve s

/-- `s` with the word of an opcode-table row presented as the next command (log entry 9). -/
def State.withFetchWord (s : State) (nbits w : Nat) : State := withTableWord s nbits w

end Sys2Proof.Machine
end

