-- ==== Sys2Proof/Machine/HostSide.lean ====
section
/-! DEFINITION. The host's duties around the core (R219 to R223) on text, and the letter names (R13). The core never
sees text; no meaning depends on this file. -/

namespace Sys2Proof.Machine

/-- The letter of an index (R13). -/
def alphabet (x : Letter) : Char := Char.ofNat (65 + x.val)

/-- The index of a letter `A` to `Z`; no other character has one (R13). -/
def alphabetIndex? (c : Char) : Option Letter :=
  if h : 65 ≤ c.toNat ∧ c.toNat ≤ 90 then some ⟨c.toNat - 65, by omega⟩ else none

/-- The code a host sends for a character of a wiring line; a character that is no letter is sent as a code that is
none (R101: such an entry makes `validate` false). -/
def charCode (c : Char) : Code :=
  match alphabetIndex? c with
  | some x => letterCode x
  | none => 31

/-- A wiring line is exactly 26 codes that pass `validate`, or it is rejected; it is never padded or cut (R219). -/
def wiringOfLine? (line : List Char) : Option (Vector Code 26) :=
  if h : (line.map charCode).length = 26 then
    if validate (line.map charCode) then some ⟨(line.map charCode).toArray, by simpa using h⟩ else none
  else none

/-- White space. DESIGN CHOICE (log entry 12): space, tab, line feed and carriage return; the spec names no set. -/
def isBlank (c : Char) : Bool := [' ', '\t', '\n', '\r'].contains c

/-- The notch line (R220, C1): absent or blank (`isBlank` throughout) gives `Z`; one letter `A` to `Z` is that letter; anything else is
reported. -/
def notchOfLine? (line : Option (List Char)) : Option Letter :=
  match line with
  | none => some 25
  | some cs =>
    if cs.all isBlank then some 25
    else
      match cs with
      | [c] => alphabetIndex? c
      | _ => none

/-- What the host's loader hands to the core for a rotor definition of two lines, or the error it reports instead
(R219, R220). DESIGN CHOICE (unsafe, log entry 24): where both lines are bad it reports the wiring line's error alone;
neither rule gives the host an order. -/
def loadDefinition (line1 : List Char) (line2 : Option (List Char)) : Except Err RotorDef :=
  match wiringOfLine? line1 with
  | none => .error .invalidWiring
  | some t =>
    match notchOfLine? line2 with
    | none => .error .invalidNotch
    | some n => .ok ⟨t, letterCode n⟩

/-- The window setting of a text: exactly three letters, or it is rejected (R221). -/
def windowOfText (text : List Char) : Except Err Triple :=
  match text with
  | [a, b, c] =>
    match alphabetIndex? a, alphabetIndex? b, alphabetIndex? c with
    | some x, some y, some z => .ok ⟨x, y, z⟩
    | _, _, _ => .error .invalidWindowSetting
  | _ => .error .invalidWindowSetting

/-- A run of character numbers that are accented variants of one vowel. -/
structure AccentRun where
  first : Nat
  last : Nat
  vowel : Char
  deriving DecidableEq, Repr

/-- The characters that are accented variants of a vowel, in either case: those that decompose into the vowel and
marks, and the O with a stroke. PRESUMED (log entry 19): R222 names no character set. -/
def accentRuns : List AccentRun :=
    [⟨0xC0, 0xC5, 'A'⟩, ⟨0xC8, 0xCB, 'E'⟩, ⟨0xCC, 0xCF, 'I'⟩, ⟨0xD2, 0xD6, 'O'⟩, ⟨0xD8, 0xD8, 'O'⟩, ⟨0xD9, 0xDC, 'U'⟩, ⟨0xDD, 0xDD, 'Y'⟩] ++
    [⟨0xE0, 0xE5, 'A'⟩, ⟨0xE8, 0xEB, 'E'⟩, ⟨0xEC, 0xEF, 'I'⟩, ⟨0xF2, 0xF6, 'O'⟩, ⟨0xF8, 0xF8, 'O'⟩, ⟨0xF9, 0xFC, 'U'⟩, ⟨0xFD, 0xFD, 'Y'⟩, ⟨0xFF, 0xFF, 'Y'⟩] ++
    [⟨0x100, 0x105, 'A'⟩, ⟨0x112, 0x11B, 'E'⟩, ⟨0x128, 0x130, 'I'⟩, ⟨0x14C, 0x151, 'O'⟩, ⟨0x168, 0x173, 'U'⟩, ⟨0x176, 0x178, 'Y'⟩, ⟨0x1A0, 0x1A1, 'O'⟩, ⟨0x1AF, 0x1B0, 'U'⟩] ++
    [⟨0x1CD, 0x1CE, 'A'⟩, ⟨0x1CF, 0x1D0, 'I'⟩, ⟨0x1D1, 0x1D2, 'O'⟩, ⟨0x1D3, 0x1DC, 'U'⟩, ⟨0x1DE, 0x1E1, 'A'⟩, ⟨0x1EA, 0x1ED, 'O'⟩, ⟨0x1FA, 0x1FB, 'A'⟩, ⟨0x1FE, 0x1FF, 'O'⟩] ++
    [⟨0x200, 0x203, 'A'⟩, ⟨0x204, 0x207, 'E'⟩, ⟨0x208, 0x20B, 'I'⟩, ⟨0x20C, 0x20F, 'O'⟩, ⟨0x214, 0x217, 'U'⟩, ⟨0x226, 0x227, 'A'⟩, ⟨0x228, 0x229, 'E'⟩, ⟨0x22A, 0x231, 'O'⟩, ⟨0x232, 0x233, 'Y'⟩] ++
    [⟨0x1E00, 0x1E01, 'A'⟩, ⟨0x1E14, 0x1E1D, 'E'⟩, ⟨0x1E2C, 0x1E2F, 'I'⟩, ⟨0x1E4C, 0x1E53, 'O'⟩, ⟨0x1E72, 0x1E7B, 'U'⟩, ⟨0x1E8E, 0x1E8F, 'Y'⟩, ⟨0x1E99, 0x1E99, 'Y'⟩] ++
    [⟨0x1EA0, 0x1EB7, 'A'⟩, ⟨0x1EB8, 0x1EC7, 'E'⟩, ⟨0x1EC8, 0x1ECB, 'I'⟩, ⟨0x1ECC, 0x1EE3, 'O'⟩, ⟨0x1EE4, 0x1EF1, 'U'⟩, ⟨0x1EF2, 0x1EF9, 'Y'⟩, ⟨0x212B, 0x212B, 'A'⟩]

/-- The vowel of which a character is an accented variant. -/
def accentedVowel? (c : Char) : Option Char :=
  (accentRuns.find? fun r => decide (r.first ≤ c.toNat ∧ c.toNat ≤ r.last)).map (·.vowel)

/-- Accented vowels are folded to their base letter (R222); which of them is open (N21). Any other character stays. -/
def foldAccent (c : Char) : Char :=
  match accentedVowel? c with
  | some v => if Config.foldsAccent c then v else c
  | none => c

/-- The letter of a character of raw text (R222): upper case, then the accent folded, then `A` to `Z` or nothing. The
upper case is that of `a` to `z`: DESIGN CHOICE (log entry 19); accented vowels stand in the table in either case. -/
def plainLetter? (c : Char) : Option Letter := alphabetIndex? (foldAccent c.toUpper)

/-- Preprocessing for encryption (R222): every character that is no letter is dropped. -/
def cleanPlainText (text : List Char) : List Letter := text.filterMap plainLetter?

/-- Preprocessing for decryption (R222): white space (`isBlank`, log entry 12) is removed. -/
def cleanCipherText (text : List Char) : List Char := text.filter fun c => !isBlank c

/-- Encryption output in blocks of 5 letters separated by one space (R223); `k` letters stand in the open block. -/
def groupFives : Nat → List Letter → List Char
  | _, [] => []
  | k, x :: rest =>
    if k = 5 then ' ' :: alphabet x :: groupFives 1 rest else alphabet x :: groupFives (k + 1) rest

end Sys2Proof.Machine
end

