-- ==== Sys2Proof/Machine/Pseudo.lean ====
section
/-! DEFINITION. The pseudo-commands (R81) and `process` (R167): sequences of commands that the host issues one at a
time, with the responses it collects (R215). -/

namespace Sys2Proof.Machine

/-- The host presents one command and the core serves it. -/
def issue (i : Instr) (s : State) : Outcome := step { s with host := [present i] }

/-- The host issues commands in order and collects the responses; it stops at the first error (R81). -/
def runCommands : List Instr → State → List Response × State
  | [], s => ([], s)
  | i :: rest, s =>
    match issue i s with
    | .next s' =>
      match s'.rsp with
      | some ⟨.ok, l⟩ => (⟨.ok, l⟩ :: (runCommands rest s').1, (runCommands rest s').2)
      | some r => ([r], s')
      | none => ([], s')
    | .fault _ => ([], s)
    | .refused _ => ([], s)

/-- The two directions (R18). -/
inductive Direction where
  | encrypt
  | decrypt
  deriving DecidableEq, Repr

/-- `SETW` of a triple. -/
def setwOf (w : Triple) : Instr := .setw (letterCode w.fast) (letterCode w.middle) (letterCode w.slow)

/-- The letter command of a direction: `ENC` or `DEC`. -/
def letterCommand (d : Direction) (x : Letter) : Instr :=
  match d with
  | .encrypt => .enc (letterCode x)
  | .decrypt => .dec (letterCode x)

/-- `PROCESS`: one `SETW`, then one letter command per letter (R81, R167). -/
def processCommands (d : Direction) (w : Triple) (msg : List Letter) : List Instr :=
  setwOf w :: msg.map (letterCommand d)

/-- The output of `process`: the response letters of its letter commands (R167). -/
def processOutput (d : Direction) (w : Triple) (msg : List Letter) (s : State) : List Letter :=
  ((runCommands (processCommands d w msg) s).1.drop 1).map (·.letter)

/-- `LOADMACHINE` (R81). -/
def loadMachine (d0 d1 d2 : RotorDef) : List Instr := [.ldrot 0 d0, .ldrot 1 d1, .ldrot 2 d2]

/-- `STEPN k` (R81). -/
def stepN (k : Nat) : List Instr := List.replicate k .step

end Sys2Proof.Machine
end

