-- ==== Sys2Proof/Machine/Assembler.lean ====
section
/-! DEFINITION. The assembler (R80) with the pseudo-commands (R81), from the characters of a line to the words it stands
for, and how a response is written. No meaning depends on this file: the core sees words. -/

namespace Sys2Proof.Machine

/-- A letter operand is written as the letter or as a code 0..31 (R80). -/
inductive LetterOperand where
  | letter (x : Letter)
  | code (c : Code)
  deriving DecidableEq, Repr

/-- The code of a letter operand. -/
def LetterOperand.value : LetterOperand → Code
  | .letter x => letterCode x
  | .code c => c

/-- The forms of R80, one constructor each. -/
inductive AsmLine where
  | nop
  /-- `LDROT r, "<26 letters>", <letter>` -/
  | ldrotText (r : BitVec 2) (wiring : Vector Letter 26) (notch : Letter)
  /-- `LDROT r, [t0, ..., t25], n` -/
  | ldrotCodes (r : BitVec 2) (entries : Vector Code 26) (notch : Code)
  | setw (f m s : LetterOperand)
  /-- `SETW "FMS"` -/
  | setwText (window : Triple)
  | step
  | enc (c : LetterOperand)
  | dec (c : LetterOperand)
  | xfme (c : LetterOperand)
  | xfmd (c : LetterOperand)
  /-- `.word 0xHHHHH` -/
  | word (cmd : CmdWord)
  deriving DecidableEq, Repr

/-- The words a line stands for (R80); `.word` places nothing on `rot_i`. -/
def assemble : AsmLine → CmdWord × RotWord
  | .nop => encode .nop
  | .ldrotText r w n => encode (.ldrot r ⟨w.map letterCode, letterCode n⟩)
  | .ldrotCodes r t n => encode (.ldrot r ⟨t, n⟩)
  | .setw f m s => encode (.setw f.value m.value s.value)
  | .setwText w => encode (setwOf w)
  | .step => encode .step
  | .enc c => encode (.enc c.value)
  | .dec c => encode (.dec c.value)
  | .xfme c => encode (.xfme c.value)
  | .xfmd c => encode (.xfmd c.value)
  | .word cmd => (cmd, 0)

/-! The characters of a line. -/

/-- The pieces of a line: words, quoted strings and punctuation. -/
inductive Token where
  | word (w : List Char)
  | str (s : List Char)
  | comma
  | opening
  | closing
  deriving DecidableEq, Repr

/-- The word collected so far, its characters in reverse. -/
def endWord (w : List Char) : List Token := if w.isEmpty then [] else [.word w.reverse]

/-- The tokens of a line. `quoted` holds the characters of an open string and `w` those of an open word, in reverse; a
string that is never closed is no line. -/
def lex : List Char → Option (List Char) → List Char → Option (List Token)
  | [], some _, _ => none
  | [], none, w => some (endWord w)
  | c :: rest, some q, w =>
    if c = Char.ofNat 34 then (lex rest none w).map (.str q.reverse :: ·) else lex rest (some (c :: q)) w
  | c :: rest, none, w =>
    if c = Char.ofNat 34 then (lex rest (some []) []).map (endWord w ++ ·)
    else if c = ' ' then (lex rest none []).map (endWord w ++ ·)
    else if c = ',' then (lex rest none []).map (endWord w ++ .comma :: ·)
    else if c = '[' then (lex rest none []).map (endWord w ++ .opening :: ·)
    else if c = ']' then (lex rest none []).map (endWord w ++ .closing :: ·)
    else lex rest none (c :: w)

/-- A decimal or hexadecimal digit below a base. -/
def digit? (base : Nat) (c : Char) : Option Nat :=
  let d :=
    if 48 ≤ c.toNat ∧ c.toNat ≤ 57 then some (c.toNat - 48)
    else if 65 ≤ c.toNat ∧ c.toNat ≤ 70 then some (c.toNat - 55)
    else if 97 ≤ c.toNat ∧ c.toNat ≤ 102 then some (c.toNat - 87)
    else none
  d.filter (· < base)

/-- A number of at least one digit. -/
def number? (base : Nat) (ds : List Char) : Option Nat :=
  if ds.isEmpty then none else ds.foldlM (fun n c => (digit? base c).map (base * n + ·)) 0

/-- A numeric code 0..31. -/
def codeOf? (w : List Char) : Option Code :=
  ((number? 10 w).filter (· < 32)).map (BitVec.ofNat 5)

/-- A slot number, as the two-bit field holds it. -/
def slotField? (w : List Char) : Option (BitVec 2) :=
  ((number? 10 w).filter (· < 4)).map (BitVec.ofNat 2)

/-- One letter `A` to `Z`. -/
def letterOf? : List Char → Option Letter
  | [c] => alphabetIndex? c
  | _ => none

/-- A letter operand (R80): a letter, or a code 0..31. -/
def operand? (w : List Char) : Option LetterOperand :=
  match letterOf? w with
  | some x => some (.letter x)
  | none => (codeOf? w).map .code

/-- A wiring string: exactly 26 letters, the first for contact `A`. -/
def wiringText? (s : List Char) : Option (Vector Letter 26) :=
  match s.mapM alphabetIndex? with
  | none => none
  | some ls => if h : ls.length = 26 then some ⟨ls.toArray, by simpa using h⟩ else none

/-- The codes of `t0, ..., tn]`, and what follows. -/
def codeList? : List Token → Option (List Code × List Token)
  | .word w :: .closing :: rest => (codeOf? w).map fun c => ([c], rest)
  | .word w :: .comma :: rest =>
    match codeOf? w, codeList? rest with
    | some c, some (cs, rest') => some (c :: cs, rest')
    | _, _ => none
  | _ => none

/-- The mnemonic of an opcode name (R72). -/
def mnemonic : Op → List Char
  | .nop => ['N', 'O', 'P']
  | .ldrot => ['L', 'D', 'R', 'O', 'T']
  | .setw => ['S', 'E', 'T', 'W']
  | .step => ['S', 'T', 'E', 'P']
  | .enc => ['E', 'N', 'C']
  | .dec => ['D', 'E', 'C']
  | .xfme => ['X', 'F', 'M', 'E']
  | .xfmd => ['X', 'F', 'M', 'D']

/-- The opcode name a mnemonic spells. -/
def mnemonicOp? (w : List Char) : Option Op :=
  [Op.nop, .ldrot, .setw, .step, .enc, .dec, .xfme, .xfmd].find? (fun o => mnemonic o == w)

/-- The one letter operand of a letter command. -/
def oneOperand? (k : LetterOperand → AsmLine) : List Token → Option AsmLine
  | [.word c] => (operand? c).map k
  | _ => none

/-- `LDROT` in its two forms. DESIGN CHOICE (safe, log entry 18): the notch of the string form is read as a letter only,
not as its index; the numeric form takes codes. -/
def parseLdrot : List Token → Option AsmLine
  | [.word r, .comma, .str s, .comma, .word n] =>
    match slotField? r, wiringText? s, letterOf? n with
    | some r, some t, some n => some (.ldrotText r t n)
    | _, _, _ => none
  | .word r :: .comma :: .opening :: rest =>
    match slotField? r, codeList? rest with
    | some r, some (cs, [.comma, .word n]) =>
      if h : cs.length = 26 then (codeOf? n).map (.ldrotCodes r ⟨cs.toArray, by simpa using h⟩) else none
    | _, _ => none
  | _ => none

/-- `SETW` in its two forms. -/
def parseSetw : List Token → Option AsmLine
  | [.word f, .comma, .word m, .comma, .word s] =>
    match operand? f, operand? m, operand? s with
    | some f, some m, some s => some (.setw f m s)
    | _, _, _ => none
  | [.str w] => (windowOfText w).toOption.map .setwText
  | _ => none

/-- A command of one line (R80). -/
def parseCommand (o : Op) (args : List Token) : Option AsmLine :=
  match o with
  | .nop => if args.isEmpty then some .nop else none
  | .ldrot => parseLdrot args
  | .setw => parseSetw args
  | .step => if args.isEmpty then some .step else none
  | .enc => oneOperand? .enc args
  | .dec => oneOperand? .dec args
  | .xfme => oneOperand? .xfme args
  | .xfmd => oneOperand? .xfmd args

/-- `.word 0xHHHHH` (R80): a number of at most 20 bits. -/
def parseWord : List Token → Option AsmLine
  | [.word ('0' :: 'x' :: ds)] => ((number? 16 ds).filter (· < 2 ^ 20)).map fun n => .word (BitVec.ofNat 20 n)
  | _ => none

/-- `PROCESS ENC, "FMS", "L1 L2 ... LN"` and `PROCESS DEC, ...` (R81). -/
def parseProcess : List Token → Option (List AsmLine)
  | [.word d, .comma, .str w, .comma, .str msg] =>
    match windowOfText w, (msg.filter (· != ' ')).mapM alphabetIndex? with
    | .ok w, some ls =>
      if d = mnemonic .enc then some (.setwText w :: ls.map fun x => .enc (.letter x))
      else if d = mnemonic .dec then some (.setwText w :: ls.map fun x => .dec (.letter x))
      else none
    | _, _ => none
  | _ => none

/-- `LOADMACHINE ROT0, ROT1, ROT2` (R81), each a wiring string and a notch letter, read as in `parseLdrot` (log
entry 18). -/
def parseLoadMachine : List Token → Option (List AsmLine)
  | [.str a, .comma, .word x, .comma, .str b, .comma, .word y, .comma, .str c, .comma, .word z] =>
    match wiringText? a, letterOf? x, wiringText? b, letterOf? y, wiringText? c, letterOf? z with
    | some a, some x, some b, some y, some c, some z => some [.ldrotText 0 a x, .ldrotText 1 b y, .ldrotText 2 c z]
    | _, _, _, _, _, _ => none
  | _ => none

/-- `STEPN k` (R81). -/
def parseStepN : List Token → Option (List AsmLine)
  | [.word k] => (number? 10 k).map fun k => List.replicate k .step
  | _ => none

/-- The lines a line stands for: itself, or the expansion of a pseudo-command (R80, R81); none when it is no line. -/
def parseLine (line : List Char) : Option (List AsmLine) :=
  match lex line none [] with
  | some (.word m :: args) =>
    match mnemonicOp? m with
    | some o => (parseCommand o args).map fun l => [l]
    | none =>
      if m = ['.', 'w', 'o', 'r', 'd'] then (parseWord args).map fun l => [l]
      else if m = ['P', 'R', 'O', 'C', 'E', 'S', 'S'] then parseProcess args
      else if m = ['L', 'O', 'A', 'D', 'M', 'A', 'C', 'H', 'I', 'N', 'E'] then parseLoadMachine args
      else if m = ['S', 'T', 'E', 'P', 'N'] then parseStepN args
      else none
  | _ => none

/-- The names of the errors (R181). -/
def errName : Err → String
  | .invalidWiring => "InvalidWiring"
  | .invalidWindowSetting => "InvalidWindowSetting"
  | .incompleteMachine => "IncompleteMachine"
  | .invalidNotch => "InvalidNotch"
  | .invalidLetter => "InvalidLetter"
  | .windowNotSet => "WindowNotSet"
  | .illegalCommand => "IllegalCommand"

/-- How a response is written (R80): `OK`, `OK L` with the letter after a command that returns one, or the error's
name. -/
def responseText (returnsLetter : Bool) (r : Response) : List Char :=
  match r.status with
  | .err e => (errName e).toList
  | .ok => if returnsLetter then ['O', 'K', ' ', alphabet r.letter] else ['O', 'K']

end Sys2Proof.Machine
end

