-- ==== Sys2Proof/Machine/Blocks.lean ====
section
/-! DEFINITION. The two sub-blocks at the level of their ports, in bits: `rotor_stepper` (R127, R131) and
`permutation_xfm` (R147, R150). The meanings use the functions on letters; these are the hardware forms beside them. -/

namespace Sys2Proof.Machine

/-- The modulo-26 incrementer: `(x == 25) ? 0 : x + 1` (R131). -/
def incBits (x : Code) : Code := if x = 25 then 0 else x + 1

/-- `pos_next` (R131): two comparators and three incrementers. -/
def posNext (pos : BitVec 15) (notchF notchM : Code) : BitVec 15 :=
  let f := pos.extractLsb' 0 5
  let m := pos.extractLsb' 5 5
  let s := pos.extractLsb' 10 5
  let eqF := f == notchF
  let eqM := m == notchM
  (if eqM then incBits s else s) ++ (if eqF || eqM then incBits m else m) ++ incBits f

/-- The registers of `rotor_stepper` (R127). -/
structure StepperRegs where
  pos : BitVec 15
  pv : Bool
  deriving DecidableEq, Repr

/-- The inputs of `rotor_stepper` at a rising clock edge (R127). -/
structure StepperIn where
  rst : Bool
  clr : Bool
  ld : Bool
  ldPos : BitVec 15
  step : Bool
  notchF : Code
  notchM : Code
  deriving DecidableEq, Repr

/-- Next state of `rotor_stepper`, first match wins (R127). DESIGN CHOICE (unsafe, log entry 23): the bits of `pos` after
`rst` and after `clr`, which R37, R210 and R24 leave unspecified, stay as they were; no statement speaks of them. -/
def stepperNext (q : StepperRegs) (i : StepperIn) : StepperRegs :=
  if i.rst then { q with pv := false }
  else if i.clr then { q with pv := false }
  else if i.ld then { pos := i.ldPos, pv := true }
  else if i.step then { q with pos := posNext q.pos i.notchF i.notchM }
  else q

/-- What `enigma_core` asserts for a command that succeeded (`ok`) or raised an error (R127): `clr` for `LDROT`,
`ld` for `SETW`, `step` for `STEP`, `ENC` and `DEC`. DESIGN CHOICE (safe, log entry 21): what `ld_pos` carries while `ld` is
0, which the spec leaves open; here the fields of a `SETW` that failed, and 0 for every other command. -/
def stepperSignals (i : Instr) (ok : Bool) (notchF notchM : Code) : StepperIn :=
  let idle : StepperIn :=
    { rst := false, clr := false, ld := false, ldPos := 0, step := false, notchF := notchF, notchM := notchM }
  match i with
  | .ldrot _ _ => { idle with clr := ok }
  | .setw f m s => { idle with ld := ok, ldPos := s ++ m ++ f }
  | .step | .enc _ | .dec _ => { idle with step := ok }
  | .nop | .xfme _ | .xfmd _ => idle

/-- A 6-bit adder and a conditional subtract of 26 (R150). -/
def addBits (a b : Code) : Code :=
  let sum : BitVec 6 := a.setWidth 6 + b.setWidth 6
  (if 26 ≤ sum then sum - 26 else sum).setWidth 5

/-- A 5-bit subtract and a conditional add of 26 (R150). -/
def subBits (a b : Code) : Code := if b ≤ a then a - b else a - b + 26

/-- The 26-way multiplexer over the table entries (R150), the table packed as `rot_i[129:0]` is (R147). -/
def entryBits (t : BitVec 130) (i : Code) : Code := t.extractLsb' (5 * i.toNat) 5

/-- The inverse lookup: 26 comparators whose one-hot result is encoded (R150). -/
def invEntryBits (t : BitVec 130) (j : Code) : Code :=
  (List.range 26).foldl
    (fun acc i => acc ||| (if entryBits t (BitVec.ofNat 5 i) = j then BitVec.ofNat 5 i else 0)) 0

/-- One rotor pass in bits with a given kind of lookup (R141, R150). -/
def passBits (lookup : Code → Code) (idx p : Code) : Code := subBits (lookup (addBits idx p)) p

/-- `permutation_xfm` (R147): `dir` 0 is encrypt, 1 is decrypt. DESIGN CHOICE (unsafe, log entry 22): R147 specifies the
output only for letters, positions and tables that are valid; outside them this is what these adders and selectors give
(for an inverse lookup, the OR of all matching contacts), and no statement speaks of it. -/
def permutationXfm (cIn : Code) (dir : Bool) (p : BitVec 15) (tbl0 tbl1 tbl2 : BitVec 130) : Code :=
  let p0 := p.extractLsb' 0 5
  let p1 := p.extractLsb' 5 5
  let p2 := p.extractLsb' 10 5
  if dir then
    passBits (invEntryBits tbl0) (passBits (invEntryBits tbl1) (passBits (invEntryBits tbl2) cIn p2) p1) p0
  else
    passBits (entryBits tbl2) (passBits (entryBits tbl1) (passBits (entryBits tbl0) cIn p0) p1) p2

/-- A table on a 130-bit port (R147). -/
def tableBits (w : Table) : BitVec 130 := packTable (w.map letterCode)

end Sys2Proof.Machine
end

