-- ==== Sys2Proof/Safety.lean ====
section
/-! DEFINITION. What claims speak of: valid tables, the invariant of the machine, ready states, runs without error. -/

namespace Sys2Proof.Machine

/-- A table is a bijection over the 26 letters: each of 0..25 occurs exactly once (R30, R100). -/
abbrev IsPermutation (w : Table) : Prop := ∀ j : Letter, ∃ i : Letter, w[i] = j ∧ ∀ k : Letter, w[k] = j → k = i

/-- Every loaded slot holds a validated table (R25, R30). -/
abbrev TablesValid (s : State) : Prop := ∀ r : Slot, ∀ rot ∈ s.slots[r], IsPermutation rot.wiring

/-- A window is set only on a complete machine (from R161, R24 and R185). -/
abbrev WindowNeedsMachine (s : State) : Prop := s.pv = true → s.complete = true

/-- The invariant of the machine. -/
abbrev State.Inv (s : State) : Prop := TablesValid s ∧ WindowNeedsMachine s

/-- The state holds these three rotors and this triple: the letter commands and `STEP` can run (R213). -/
structure State.Holds (s : State) (m : Rotors) (p : Triple) : Prop where
  fast : s.slots[0] = some m.fast
  middle : s.slots[1] = some m.middle
  slow : s.slots[2] = some m.slow
  window : s.pos = some p

/-- The command that the next step accepts, if it accepts one (R226). -/
def acceptedCommand? (s : State) : Option Instr :=
  match s.host with
  | .edge e :: _ => if e.rst || !e.cmdValid then none else (decode e.cmd e.rotI).toOption
  | _ => none

/-- The next step samples `rst` high (R210, R211). -/
def resetsNext (s : State) : Bool :=
  match s.host with
  | .edge e :: _ => e.rst
  | .resetInFlight _ _ :: _ => true
  | _ => false

/-- The host breaks the handshake in the next step (R225), by a breach of its own move. Another word after an edge with
`rst` high is not counted as one (log entry 25). -/
def breaksNext (s : State) : Bool :=
  match s.host with
  | .breach _ :: _ => true
  | _ => false

/-- The response on the port is `OK`. -/
def answeredOk (s : State) : Bool :=
  match s.rsp with
  | some r => r.status == .ok
  | none => false

/-- Two machines that differ at most in `notch[2]` (R125). -/
structure SameButSlowNotch (s t : State) : Prop where
  fast : s.slots[0] = t.slots[0]
  middle : s.slots[1] = t.slots[1]
  slow : s.slots[2].map (·.wiring) = t.slots[2].map (·.wiring)
  pos : s.pos = t.pos
  rsp : s.rsp = t.rsp
  host : s.host = t.host

/-- The triples that are neither without predecessor nor reached only from one that is (R130 (c), (d)): the 16900
triples of the stepping cycle. -/
abbrev OnCycle (nf nm : Letter) (p : Triple) : Prop :=
  ¬(p.middle = nm ∧ p.fast ≠ inc26 nf) ∧ ¬(p.fast = inc26 nf ∧ p.middle = inc26 nm)

/-- The registers of `rotor_stepper` hold what the state says (R40, R127): `pv`, and the triple while `pv` is 1. -/
structure StepperMatches (q : StepperRegs) (s : State) : Prop where
  pv : q.pv = s.pv
  pos : ∀ p ∈ s.pos, q.pos = packTriple p

/-- No error in a list of responses (R191: a claim that wants this premise collects it from the responses). -/
abbrev AllOk (rs : List Response) : Prop := ∀ r ∈ rs, r.status = .ok

/-- The states of every run from reset, for every sequence of moves the host chooses (R215). -/
inductive Reachable : State → Prop where
  | reset (moves : List HostMove) : Reachable { State.reset with host := moves }
  | step {s s' : State} (h : Reachable s) (hs : step s = .next s') : Reachable s'

end Sys2Proof.Machine
end

