-- ==== Sys2Proof/Certificates/Slice0/Obligations.lean ====
section
/-! DEFINITION. The statements for the provers, each citing the rules it formalises. Free values of the outputs are
universally quantified: a statement about them holds for every value. -/

open Sys2Proof Sys2Proof.Machine

/-! ## Encoding -/

/-- Decoding the encoding of any command gives it back, every operand at every value (R70 to R73, R76). -/
def Obligations.DecodeOfEncode : Prop :=
  ∀ i : Instr, i.wellFormed = true → decode (encode i).1 (encode i).2 = .ok i

/-- A decoded word is the encoding of what it decodes to: no bit of the command word, and for `LDROT` no bit of
`rot_i`, is dropped. -/
def Obligations.EncodeOfDecode : Prop :=
  ∀ (cmd : CmdWord) (rotI : RotWord) (i : Instr), decode cmd rotI = .ok i →
    i.wellFormed = true ∧ (encode i).1 = cmd ∧ ∀ r rot, i = .ldrot r rot → (encode i).2 = rotI

/-- R78 with R74, R75 and R188: the four steps in order, in every state. A word that is no command raises
`IllegalCommand` and is annulled; any other word is the command of its opcode with the fields of R71. -/
def Obligations.DecodingIsTotalInOrder : Prop :=
  ∀ (cmd : CmdWord) (rotI : RotWord) (s : State),
    let op := (cmd.extractLsb' 16 4).toNat
    let illegal := runCommand cmd rotI s = .next { s with rsp := some ⟨.err .illegalCommand, 0⟩ }
    let letterField := cmd.extractLsb' 0 5
    if cmd.getLsbD 19 then illegal
    else if (op = 0 ∨ op = 3) ∧ cmd.extractLsb' 0 16 ≠ 0 then illegal
    else if op = 1 ∧ cmd.extractLsb' 2 14 ≠ 0 then illegal
    else if op = 2 ∧ cmd.getLsbD 15 = true then illegal
    else if 4 ≤ op ∧ cmd.extractLsb' 5 11 ≠ 0 then illegal
    else if op = 1 ∧ cmd.extractLsb' 0 2 = 3 then illegal
    else if op = 0 then runCommand cmd rotI s = exec .nop s
    else if op = 1 then
      ∃ d : RotorDef, (∀ i : Fin 26, d.entries[i] = rotI.extractLsb' (5 * i.val) 5) ∧
        d.notch = rotI.extractLsb' 130 5 ∧ runCommand cmd rotI s = exec (.ldrot (cmd.extractLsb' 0 2) d) s
    else if op = 2 then
      runCommand cmd rotI s = exec (.setw (cmd.extractLsb' 0 5) (cmd.extractLsb' 5 5) (cmd.extractLsb' 10 5)) s
    else if op = 3 then runCommand cmd rotI s = exec .step s
    else if op = 4 then runCommand cmd rotI s = exec (.enc letterField) s
    else if op = 5 then runCommand cmd rotI s = exec (.dec letterField) s
    else if op = 6 then runCommand cmd rotI s = exec (.xfme letterField) s
    else runCommand cmd rotI s = exec (.xfmd letterField) s

/-- R80: the words of the assembler's forms as numbers. -/
def Obligations.CommandWordsAsNumbers : Prop :=
  (assemble .nop).1.toNat = 0x00000 ∧ (assemble .step).1.toNat = 0x30000 ∧
  (∀ (r : BitVec 2) (t : Vector Code 26) (n : Code), (assemble (.ldrotCodes r t n)).1.toNat = 0x10000 + r.toNat) ∧
  (∀ (r : BitVec 2) (w : Vector Letter 26) (n : Letter), (assemble (.ldrotText r w n)).1.toNat = 0x10000 + r.toNat ∧
    (assemble (.ldrotText r w n)).2 = (assemble (.ldrotCodes r (w.map letterCode) (letterCode n))).2) ∧
  (∀ f m s : LetterOperand,
    (assemble (.setw f m s)).1.toNat = 0x20000 + 1024 * s.value.toNat + 32 * m.value.toNat + f.value.toNat) ∧
  (∀ w : Triple, assemble (.setwText w) = assemble (.setw (.letter w.fast) (.letter w.middle) (.letter w.slow))) ∧
  (∀ c : LetterOperand, (assemble (.enc c)).1.toNat = 0x40000 + c.value.toNat ∧
    (assemble (.dec c)).1.toNat = 0x50000 + c.value.toNat ∧ (assemble (.xfme c)).1.toNat = 0x60000 + c.value.toNat ∧
    (assemble (.xfmd c)).1.toNat = 0x70000 + c.value.toNat) ∧
  (∀ x : Letter, (LetterOperand.letter x).value.toNat = x.val) ∧ ∀ w : CmdWord, (assemble (.word w)).1 = w

/-- A few words written out from R72 and 95_test_vectors.md section 3 decode to the commands they stand for, and the
listed words that are not commands are rejected. -/
def Obligations.SpecifiedWordsDecode : Prop :=
  decode 0x00000 0 = .ok .nop ∧
  decode 0x25490 0 = .ok (.setw 16 4 21) ∧
  decode 0x30000 0 = .ok .step ∧
  decode 0x40007 0 = .ok (.enc 7) ∧
  decode 0x50007 0 = .ok (.dec 7) ∧
  decode 0x60007 0 = .ok (.xfme 7) ∧
  decode 0x70007 0 = .ok (.xfmd 7) ∧
  decode 0x10002 0x41 = .ok (.ldrot 2 (unpackRotor 0x41)) ∧
  decode 0x80000 0 = .error .reservedOpcode ∧
  decode 0x00001 0 = .error .reservedBits ∧
  decode 0x28000 0 = .error .reservedBits ∧
  decode 0x40020 0 = .error .reservedBits ∧
  decode 0x10004 0 = .error .reservedBits ∧
  decode 0x10003 0 = .error .noSuchSlot

/-- R70: no command but `LDROT` looks at `rot_i`. -/
def Obligations.OnlyLdrotLooksAtRotI : Prop :=
  ∀ (cmd : CmdWord) (rotI rotI' : RotWord) (s : State), cmd.extractLsb' 16 4 ≠ 1 →
    runCommand cmd rotI s = runCommand cmd rotI' s

/-- R76: in the packed rotor word entry `i` is at bits `[5i+4 : 5i]` and the notch code at bits 134:130. -/
def Obligations.PackedRotorFields : Prop :=
  ∀ d : RotorDef, (∀ i : Fin 26, (packRotor d).extractLsb' (5 * i.val) 5 = d.entries[i]) ∧
    (packRotor d).extractLsb' 130 5 = d.notch

/-! ## Responses and outputs -/

/-- R181: the codes; R77: the layout of the response word. -/
def Obligations.ResponseWordLayout : Prop :=
  (∀ r : Response, (responseWord r).extractLsb' 5 3 = statusCode r.status ∧
    ((responseWord r).extractLsb' 0 5).toNat = r.letter.val) ∧
  statusCode .ok = 0 ∧ statusCode (.err .invalidWiring) = 1 ∧ statusCode (.err .invalidWindowSetting) = 2 ∧
  statusCode (.err .incompleteMachine) = 3 ∧ statusCode (.err .invalidNotch) = 4 ∧
  statusCode (.err .invalidLetter) = 5 ∧ statusCode (.err .windowNotSet) = 6 ∧
  statusCode (.err .illegalCommand) = 7

/-- R77: every accepted command word produces a response word `{st, L}`; `L` is a letter, 0 unless `st` is 0 and the
command is `ENC`, `DEC`, `XFME` or `XFMD`. (Valid tables: every reachable state has them, R30.) -/
def Obligations.EveryCommandResponds : Prop :=
  ∀ (cmd : CmdWord) (rotI : RotWord) (s : State), TablesValid s →
    ∃ s' r, runCommand cmd rotI s = .next s' ∧ s'.rsp = some r ∧ ∀ (fr : RspWord) (fw : BitVec 15),
      (outputs s' fr fw).rspValid = true ∧
      (outputs s' fr fw).rsp.extractLsb' 5 3 = statusCode r.status ∧
      ((outputs s' fr fw).rsp.extractLsb' 0 5).toNat = r.letter.val ∧
      (r.status ≠ .ok ∨ (cmd.extractLsb' 16 4).toNat < 4 → (outputs s' fr fw).rsp.extractLsb' 0 5 = 0)

/-- R38, R39: the status outputs show the state between commands, whatever the unspecified values are. -/
def Obligations.StatusOutputsShowState : Prop :=
  ∀ (s : State) (fr : RspWord) (fw : BitVec 15),
    (∀ r : Slot, (outputs s fr fw).rvO.getLsbD r.val = s.rv r) ∧
    (outputs s fr fw).pvO = BitVec.ofBool s.pv ∧
    ∀ p ∈ s.pos, ((outputs s fr fw).winO.extractLsb' 0 5).toNat = p.fast.val ∧
      ((outputs s fr fw).winO.extractLsb' 5 5).toNat = p.middle.val ∧
      ((outputs s fr fw).winO.extractLsb' 10 5).toNat = p.slow.val

/-! ## Reset and the port -/

/-- R37: the valid bits and the response strobe after reset, as registers and as outputs. -/
def Obligations.ResetStateValues : Prop :=
  (∀ r : Slot, State.reset.rv r = false) ∧ State.reset.pv = false ∧ State.reset.rsp = none ∧
  ∀ (fr : RspWord) (fw : BitVec 15), (outputs State.reset fr fw).rspValid = false ∧
    (outputs State.reset fr fw).rvO = 0 ∧ (outputs State.reset fr fw).pvO = 0

/-- R210: whenever `rst` is sampled high the state becomes the reset state, whatever it was and whatever the other pins
say, and nothing but that clears an `rv` bit. -/
def Obligations.ResetWinsAndAloneClearsSlots : Prop :=
  (∀ s : State, resetsNext s = true →
    ∃ s', step s = .next s' ∧ (∀ q, s'.rv q = false) ∧ s'.pv = false ∧ s'.rsp = none ∧
      s' = { State.reset with host := s'.host }) ∧
  ∀ (s s' : State) (r : Slot), step s = .next s' → s.rv r = true → s'.rv r = false → resetsNext s = true

/-- R211: a command in flight at reset gets no response and has no effect that survives. -/
def Obligations.CommandInFlightAtResetIsAbandoned : Prop :=
  ∀ (s : State) (cmd : CmdWord) (rotI : RotWord) (rest : List HostMove), s.host = .resetInFlight cmd rotI :: rest →
    ∃ s', step s = .next s' ∧ s'.rsp = none ∧ s' = { State.reset with host := s'.host }

/-- A step runs the decoded command, on the state with the host's move spent; a word that is no command raises
`IllegalCommand` (R226, R78, R188). -/
def Obligations.StepRunsDecodedCommand : Prop :=
  ∀ (s : State) (e : Edge) (rest : List HostMove), s.host = .edge e :: rest → e.rst = false → e.cmdValid = true →
    (∀ i, decode e.cmd e.rotI = .ok i → step s = exec i { s with host := rest }) ∧
    ∀ j, decode e.cmd e.rotI = .error j →
      step s = .next { s with host := rest, rsp := some ⟨.err .illegalCommand, 0⟩ }

/-- With no command and no reset the state holds (R204), and the response strobe is over: how long a response stays on
the port is the model's reading of R38, log entry 3. -/
def Obligations.NoCommandHoldsState : Prop :=
  (∀ s : State, s.host = [] → step s = .next { s with rsp := none }) ∧
  ∀ (s : State) (e : Edge) (rest : List HostMove), s.host = .edge e :: rest → e.rst = false → e.cmdValid = false →
    step s = .next { s with rsp := none, host := rest }

/-- R225, U11: a broken handshake has no move; the form of the refusal is the model's, log entry 7. -/
def Obligations.BrokenHandshakeHasNoMove : Prop :=
  ∀ (s : State) (b : Breach) (rest : List HostMove), s.host = .breach b :: rest →
    step s = .refused (.handshakeBroken b)

/-! ## The commands -/

/-- R166: `NOP`, as a command and as a word. -/
def Obligations.NopCommand : Prop :=
  (∀ s : State, exec .nop s = .next { s with rsp := some ⟨.ok, 0⟩ }) ∧
  ∀ (cmd : CmdWord) (rotI : RotWord) (s : State), cmd.extractLsb' 16 4 = 0 →
    runCommand cmd rotI s = if cmd.extractLsb' 0 16 ≠ 0 then .next { s with rsp := some ⟨.err .illegalCommand, 0⟩ }
      else .next { s with rsp := some ⟨.ok, 0⟩ }

/-- R105, success: a candidate in which every letter occurs exactly once and a notch that is a letter load the slot as a
whole, set `rv[r]` and clear `pv`; nothing else changes but the response. -/
def Obligations.LdrotLoadsRotor : Prop :=
  ∀ (r : BitVec 2) (k : Slot) (rot : RotorDef) (s : State), r.toNat = k.val →
    (∀ j : Letter, ∃ i : Fin 26, rot.entries[i].toNat = j.val ∧ ∀ q : Fin 26, rot.entries[q].toNat = j.val → q = i) →
    rot.notch.toNat < 26 →
    ∃ (w : Table) (n : Letter), (∀ i : Fin 26, (w[i] : Letter).val = rot.entries[i].toNat) ∧ n.val = rot.notch.toNat ∧
      exec (.ldrot r rot) s =
        .next { s with slots := s.slots.set k (some ⟨w, n⟩), pos := none, rsp := some ⟨.ok, 0⟩ }

/-- R105, R182, R184, R193: the errors of `LDROT` in their order; each annuls the command. -/
def Obligations.LdrotErrorsInOrder : Prop :=
  ∀ (r : BitVec 2) (rot : RotorDef) (s : State),
    (r = 3 → exec (.ldrot r rot) s = .next { s with rsp := some ⟨.err .illegalCommand, 0⟩ }) ∧
    (r ≠ 3 → ∀ j : Letter, (∀ i : Fin 26, rot.entries[i].toNat ≠ j.val) →
      exec (.ldrot r rot) s = .next { s with rsp := some ⟨.err .invalidWiring, 0⟩ }) ∧
    (r ≠ 3 → (∀ j : Letter, ∃ i : Fin 26, rot.entries[i].toNat = j.val) → 26 ≤ rot.notch.toNat →
      exec (.ldrot r rot) s = .next { s with rsp := some ⟨.err .invalidNotch, 0⟩ })

/-- R161: `SETW`, its checks in order, its result, and its reserved bit. -/
def Obligations.SetwCommand : Prop :=
  (∀ (f m w : Code) (s : State),
    (s.complete = false → exec (.setw f m w) s = .next { s with rsp := some ⟨.err .incompleteMachine, 0⟩ }) ∧
    (s.complete = true → 26 ≤ f.toNat ∨ 26 ≤ m.toNat ∨ 26 ≤ w.toNat →
      exec (.setw f m w) s = .next { s with rsp := some ⟨.err .invalidWindowSetting, 0⟩ }) ∧
    ∀ p : Triple, s.complete = true → f.toNat = p.fast.val → m.toNat = p.middle.val → w.toNat = p.slow.val →
      exec (.setw f m w) s = .next { s with pos := some p, rsp := some ⟨.ok, 0⟩ }) ∧
  ∀ (cmd : CmdWord) (rotI : RotWord) (s : State), cmd.extractLsb' 16 4 = 2 →
    runCommand cmd rotI s = if cmd.getLsbD 15 then .next { s with rsp := some ⟨.err .illegalCommand, 0⟩ }
      else exec (.setw (cmd.extractLsb' 0 5) (cmd.extractLsb' 5 5) (cmd.extractLsb' 10 5)) s

/-- R128: `STEP`, its checks in order, its result, and its reserved bits. -/
def Obligations.StepCommand : Prop :=
  (∀ s : State,
    (s.complete = false → exec .step s = .next { s with rsp := some ⟨.err .incompleteMachine, 0⟩ }) ∧
    (s.complete = true → s.pos = none → exec .step s = .next { s with rsp := some ⟨.err .windowNotSet, 0⟩ }) ∧
    ∀ (m : Rotors) (p : Triple), s.Holds m p →
      exec .step s =
        .next { s with pos := some (advance p m.fast.notch m.middle.notch), rsp := some ⟨.ok, 0⟩ }) ∧
  ∀ (cmd : CmdWord) (rotI : RotWord) (s : State), cmd.extractLsb' 16 4 = 3 →
    runCommand cmd rotI s = if cmd.extractLsb' 0 16 ≠ 0 then .next { s with rsp := some ⟨.err .illegalCommand, 0⟩ }
      else exec .step s

/-- R163: `ENC` on a ready machine transforms the letter at the post-advance triple and leaves that triple. -/
def Obligations.EncCommand : Prop :=
  ∀ (c : Code) (x : Letter) (s : State) (m : Rotors) (p p' : Triple), s.Holds m p → c.toNat = x.val →
    p' = advance p m.fast.notch m.middle.notch →
    exec (.enc c) s = .next { s with
      pos := some p'
      rsp := some ⟨.ok, rotorPass (rotorPass (rotorPass x p'.fast m.fast.wiring) p'.middle m.middle.wiring) p'.slow m.slow.wiring⟩ }

/-- R164, R143, R53: `DEC` on a ready machine advances as `ENC` does and looks each letter up backwards: the contact
`a` whose output in the slow table is the shifted letter, then `b` in the middle table, then `d` in the fast one. -/
def Obligations.DecCommand : Prop :=
  ∀ (c : Code) (x : Letter) (s : State) (m : Rotors) (p p' : Triple), s.Holds m p → TablesValid s → c.toNat = x.val →
    p' = advance p m.fast.notch m.middle.notch →
    ∃ a b d : Letter, m.slow.wiring[a] = add26 x p'.slow ∧
      m.middle.wiring[b] = add26 (sub26 a p'.slow) p'.middle ∧
      m.fast.wiring[d] = add26 (sub26 b p'.middle) p'.fast ∧
      exec (.dec c) s = .next { s with pos := some p', rsp := some ⟨.ok, sub26 d p'.fast⟩ }

/-- R148: `XFME` on a ready machine transforms the letter at the current triple; no rotor moves. -/
def Obligations.XfmeCommand : Prop :=
  ∀ (c : Code) (x : Letter) (s : State) (m : Rotors) (p : Triple), s.Holds m p → c.toNat = x.val →
    exec (.xfme c) s = .next { s with
      rsp := some ⟨.ok, rotorPass (rotorPass (rotorPass x p.fast m.fast.wiring) p.middle m.middle.wiring) p.slow m.slow.wiring⟩ }

/-- R149, R143, R53: `XFMD` on a ready machine, the backward lookup at the current triple; no rotor moves. -/
def Obligations.XfmdCommand : Prop :=
  ∀ (c : Code) (x : Letter) (s : State) (m : Rotors) (p : Triple), s.Holds m p → TablesValid s → c.toNat = x.val →
    ∃ a b d : Letter, m.slow.wiring[a] = add26 x p.slow ∧
      m.middle.wiring[b] = add26 (sub26 a p.slow) p.middle ∧
      m.fast.wiring[d] = add26 (sub26 b p.middle) p.fast ∧
      exec (.xfmd c) s = .next { s with rsp := some ⟨.ok, sub26 d p.fast⟩ }

/-- R163, R164, R148, R149, R193: the errors of the four letter commands in their order, each with no state change, and
their reserved bits. -/
def Obligations.LetterCommandErrorsInOrder : Prop :=
  (∀ (c : Code) (s : State) (i : Instr), i ∈ [Instr.enc c, .dec c, .xfme c, .xfmd c] →
    (s.complete = false → exec i s = .next { s with rsp := some ⟨.err .incompleteMachine, 0⟩ }) ∧
    (s.complete = true → s.pos = none → exec i s = .next { s with rsp := some ⟨.err .windowNotSet, 0⟩ }) ∧
    (s.complete = true → s.pos ≠ none → 26 ≤ c.toNat →
      exec i s = .next { s with rsp := some ⟨.err .invalidLetter, 0⟩ })) ∧
  ∀ (cmd : CmdWord) (rotI : RotWord) (s : State), 4 ≤ (cmd.extractLsb' 16 4).toNat →
    (cmd.extractLsb' 16 4).toNat < 8 → cmd.extractLsb' 5 11 ≠ 0 →
    runCommand cmd rotI s = .next { s with rsp := some ⟨.err .illegalCommand, 0⟩ }

/-! ## Frames and rules of the whole machine -/

/-- The frame of `LDROT` (R105, R23): every other slot with all its entries, and the host's moves, are unchanged; the
triple is unchanged or cleared. -/
def Obligations.LdrotFrame : Prop :=
  ∀ (r : BitVec 2) (rot : RotorDef) (s s' : State), exec (.ldrot r rot) s = .next s' →
    s'.host = s.host ∧ (s'.pos = s.pos ∨ s'.pos = none) ∧
    ∀ q : Slot, q.val ≠ r.toNat → s'.rv q = s.rv q ∧ s'.slots[q].map (·.notch) = s.slots[q].map (·.notch) ∧
      ∀ i : Letter, tblRead? s' q i = tblRead? s q i

/-- R31: `SETW`, `STEP`, `ENC`, `DEC`, `XFME`, `XFMD` and `NOP` never change `wiring`, `notch` or `rv`; every entry of the
table store reads as before. -/
def Obligations.OnlyLdrotChangesRotors : Prop :=
  ∀ (i : Instr) (s s' : State), (∀ r rot, i ≠ .ldrot r rot) → exec i s = .next s' →
    s'.host = s.host ∧ s'.slots = s.slots ∧ (∀ q, s'.rv q = s.rv q) ∧
    ∀ (q : Slot) (j : Letter), tblRead? s' q j = tblRead? s q j

/-- R23: `XFME`, `XFMD`, `NOP` and a failed `LDROT` do not write the triple, and the first three change nothing but
the response. -/
def Obligations.NopAndTransformsChangeOnlyResponse : Prop :=
  (∀ (c : Code) (i : Instr) (s s' : State), i ∈ [Instr.nop, .xfme c, .xfmd c] → exec i s = .next s' →
    s' = { s with rsp := s'.rsp }) ∧
  ∀ (r : BitVec 2) (rot : RotorDef) (s s' : State), exec (.ldrot r rot) s = .next s' → s'.pos ≠ s.pos →
    s'.pos = none ∧ s'.rsp = some ⟨.ok, 0⟩

/-- R190: a step whose response carries an error writes no architectural state. -/
def Obligations.ErrorAnnulsCommand : Prop :=
  ∀ (s s' : State) (r : Response), step s = .next s' → s'.rsp = some r → r.status ≠ .ok →
    s'.slots = s.slots ∧ s'.pos = s.pos ∧ (∀ q, s'.rv q = s.rv q) ∧ s'.pv = s.pv ∧ r.letter = 0

/-- R191: after a failed command the next runs as if the failed one had been a `NOP`; for the words on the port, those
that are no command included, as the failed command and as the next, and for the commands. -/
def Obligations.ErrorsAreNotSticky : Prop :=
  (∀ (cmd cmd' : CmdWord) (rotI rotI' nopRot : RotWord) (s s' s'' : State) (e : Err),
    runCommand cmd rotI s = .next s' → s'.rsp = some ⟨.err e, 0⟩ → runCommand 0x00000 nopRot s = .next s'' →
    runCommand cmd' rotI' s' = runCommand cmd' rotI' s'') ∧
  ∀ (i j : Instr) (s s' s'' : State) (e : Err), exec i s = .next s' → s'.rsp = some ⟨.err e, 0⟩ →
    exec .nop s = .next s'' → exec j s' = exec j s''

/-- R24: what changes `pv`, and what raises `WindowNotSet`. -/
def Obligations.WindowValidRule : Prop :=
  (∀ s s' : State, step s = .next s' →
    s'.pv = match resetsNext s, answeredOk s', acceptedCommand? s with
      | true, _, _ => false
      | false, true, some (.ldrot _ _) => false
      | false, true, some (.setw _ _ _) => true
      | false, _, _ => s.pv) ∧
  ∀ (c : Code) (s : State) (i : Instr), i ∈ [Instr.step, .enc c, .dec c, .xfme c, .xfmd c] → s.complete = true →
    s.pv = false → exec i s = .next { s with rsp := some ⟨.err .windowNotSet, 0⟩ }

/-- R25, R29, R30: what changes `rv[r]`, and with it the slot's contents. -/
def Obligations.SlotValidRule : Prop :=
  ∀ (s s' : State) (q : Slot), step s = .next s' →
    match resetsNext s, answeredOk s', acceptedCommand? s with
    | true, _, _ => s'.rv q = false
    | false, true, some (.ldrot r rot) =>
      if r.toNat = q.val then
        ∃ t : Rotor, s'.slots[q] = some t ∧ IsPermutation t.wiring ∧ t.notch.val = rot.notch.toNat ∧
          ∀ i : Letter, (t.wiring[i] : Letter).val = rot.entries[i].toNat
      else s'.slots[q] = s.slots[q]
    | false, _, _ => s'.slots[q] = s.slots[q]

/-- The reset state meets the invariant. -/
def Obligations.ResetMeetsInvariant : Prop :=
  ∀ moves : List HostMove, ({ State.reset with host := moves } : State).Inv

/-- Every step keeps the invariant: each loaded table is a bijection (R30), and a window is set only on a complete
machine. -/
def Obligations.StepKeepsInvariant : Prop :=
  ∀ s s' : State, s.Inv → step s = .next s' → s'.Inv

/-- On valid tables every move of the host that keeps the handshake has a result, and spends that move (R225). What
keeps it is `breaksNext`, the model's reading (log entries 7 and 25). -/
def Obligations.EveryMoveHasAResult : Prop :=
  ∀ s : State, TablesValid s → breaksNext s = false → ∃ s', step s = .next s' ∧ s'.host = s.host.tail

/-- In every state reached from reset, whatever moves led there, tables are valid, and the next move has a result if it
keeps the handshake (R225, R30). A move that breaks it is refused (`BrokenHandshakeHasNoMove`): the model's choice, log
entry 7, unsafe; what keeps the handshake after an edge with `rst` high is log entry 25. -/
def Obligations.RunsFromResetNeverStop : Prop :=
  ∀ s : State, Reachable s → s.Inv ∧ (breaksNext s = false → ∃ s', step s = .next s')

/-! ## Stepping -/

/-- R121: the five rules of `advance` in natural numbers, on the pre-advance positions. -/
def Obligations.AdvanceRule : Prop :=
  ∀ (p : Triple) (nf nm : Letter),
    (advance p nf nm).fast.val = (p.fast.val + 1) % 26 ∧
    (advance p nf nm).middle.val =
      (if p.fast.val = nf.val ∨ p.middle.val = nm.val then (p.middle.val + 1) % 26 else p.middle.val) ∧
    (advance p nf nm).slow.val = (if p.middle.val = nm.val then (p.slow.val + 1) % 26 else p.slow.val)

/-- R165: `ENC`, `DEC` and `STEP` leave the same triple for every letter. -/
def Obligations.DirectionNeverAffectsStepping : Prop :=
  ∀ (c d : Code) (s : State), s.complete = true → s.pv = true → TablesValid s → c.toNat < 26 → d.toNat < 26 →
    ∃ s1 s2 s3, exec (.enc c) s = .next s1 ∧ exec (.dec d) s = .next s2 ∧ exec .step s = .next s3 ∧
      s1.pos = s2.pos ∧ s2.pos = s3.pos

/-- R125: two machines that differ only in `notch[2]` behave identically: they answer alike and stay so. -/
def Obligations.SlowNotchNeverConsulted : Prop :=
  ∀ s t : State, SameButSlowNotch s t →
    match step s, step t with
    | .next s', .next t' => SameButSlowNotch s' t'
    | .refused a, .refused b => a = b
    | _, _ => False

/-- R130 (c): the triples with no predecessor. -/
def Obligations.TriplesWithoutPredecessor : Prop :=
  ∀ (p' : Triple) (nf nm : Letter),
    (¬∃ p, advance p nf nm = p') ↔ (p'.middle = nm ∧ p'.fast ≠ inc26 nf)

/-- R130 (d): after at most two steps the machine is on the cycle's triples and stays there; there no two triples have
the same successor and both rotors are never at their notches at once. -/
def Obligations.SteppingSettlesOnCycle : Prop :=
  ∀ (nf nm : Letter),
    (∀ p, OnCycle nf nm (advance (advance p nf nm) nf nm)) ∧
    (∀ p, OnCycle nf nm p → OnCycle nf nm (advance p nf nm)) ∧
    (∀ p, OnCycle nf nm p → ¬(p.fast = nf ∧ p.middle = nm)) ∧
    ∀ p q, OnCycle nf nm p → OnCycle nf nm q → advance p nf nm = advance q nf nm → p = q

/-- R130 (e): the fast rotor has period 26 regardless of the notches. -/
def Obligations.FastRotorHasPeriod26 : Prop :=
  ∀ (p : Triple) (nf nm : Letter), ((fun q => advance q nf nm)^[26] p).fast = p.fast ∧
    ∀ k, 0 < k → k < 26 → ((fun q => advance q nf nm)^[k] p).fast ≠ p.fast

/-! ## Permutations -/

/-- R101, R104: `validate` of a sequence of any length, and the equivalent forms of `validate_hw` on 26 entries. -/
def Obligations.ValidateRules : Prop :=
  (∀ w : List Code, validate w = true ↔ w.length = 26 ∧ ∀ j, j < 26 → ∃ c ∈ w, c.toNat = j) ∧
  ∀ t : Vector Code 26,
    (validateHw t = true ↔ ∀ j, j < 26 → ∃ i : Fin 26, t[i].toNat = j ∧ ∀ k : Fin 26, t[k].toNat = j → k = i) ∧
    (validateHw t = true ↔ (∀ i : Fin 26, t[i].toNat < 26) ∧ ∀ i k : Fin 26, t[i] = t[k] → i = k) ∧
    validateHw t = validate t.toList

/-- R103, R102: `invert` of a valid table, its laws, and its involution. -/
def Obligations.InvertLaws : Prop :=
  ∀ w : Table, IsPermutation w → ∃ v, invert? w = some v ∧ IsPermutation v ∧ invert? v = some w ∧
    ∀ i : Letter, v[w[i]] = i ∧ w[v[i]] = i

/-- Where `DEC` and `XFMD` stop: on a ready machine with a table that is no permutation. The spec gives `invert` no value
there and says that no machine holds such a table (R102, U3); stopping is the model's choice, log entry 8. -/
def Obligations.InvertOfUnvalidatedTableStops : Prop :=
  ∀ (c : Code) (s : State) (m : Rotors) (p : Triple) (i : Instr), i ∈ [Instr.dec c, .xfmd c] → s.Holds m p →
    c.toNat < 26 →
    ¬(IsPermutation m.fast.wiring ∧ IsPermutation m.middle.wiring ∧ IsPermutation m.slow.wiring) →
    exec i s = .refused .invertOfUnvalidatedTable

/-! ## The transform -/

/-- R141: one rotor pass in natural numbers. -/
def Obligations.RotorPassRule : Prop :=
  ∀ (idx p : Letter) (w : Table) (shifted : Letter), shifted.val = (idx.val + p.val) % 26 →
    (rotorPass idx p w).val = ((w[shifted] : Letter).val + 26 - p.val) % 26

/-- R144: the round trip at a fixed triple, in both orders. -/
def Obligations.TransformRoundTrip : Prop :=
  ∀ (m : Rotors) (p : Triple), IsPermutation m.fast.wiring → IsPermutation m.middle.wiring →
    IsPermutation m.slow.wiring →
    ∃ t, inverseTables? m = some t ∧
      ∀ c, transformDec (transformEnc c p (forwardTables m)) p t = c ∧
        transformEnc (transformDec c p t) p (forwardTables m) = c

/-- R145: at a fixed triple `transform_enc` is a bijection of the letters, and with three identity tables it is the
identity at every position. -/
def Obligations.TransformEncIsBijective : Prop :=
  (∀ (t : Tables) (p : Triple), IsPermutation t.fast → IsPermutation t.middle → IsPermutation t.slow →
    Function.Bijective fun c => transformEnc c p t) ∧
  ∀ (t : Tables) (p : Triple) (c : Letter), (∀ i : Letter, t.fast[i] = i) → (∀ i : Letter, t.middle[i] = i) →
    (∀ i : Letter, t.slow[i] = i) → transformEnc c p t = c

/-- R149, R144 at the command port: `XFMD` of the letter that `XFME c` returned answers `c`, and likewise `XFME` after
`XFMD`. -/
def Obligations.XfmdUndoesXfme : Prop :=
  ∀ (x y : Letter) (s s' : State), TablesValid s → s'.rsp = some ⟨.ok, y⟩ →
    (exec (.xfme (letterCode x)) s = .next s' → exec (.xfmd (letterCode y)) s' = .next { s' with rsp := some ⟨.ok, x⟩ }) ∧
    (exec (.xfmd (letterCode x)) s = .next s' → exec (.xfme (letterCode y)) s' = .next { s' with rsp := some ⟨.ok, x⟩ })

/-! ## Messages and bring-up -/

/-- R167, R168: `process` on a complete machine: every response is `OK`, N letters give N letters, the rotors stay, and
the triple after it is the N-fold `advance` of the window setting, in either direction. -/
def Obligations.ProcessAdvancesOncePerLetter : Prop :=
  ∀ (d : Direction) (w : Triple) (msg : List Letter) (s : State) (m : Rotors), rotorsOf? s = some m → TablesValid s →
    AllOk (runCommands (processCommands d w msg) s).1 ∧
    (processOutput d w msg s).length = msg.length ∧
    (runCommands (processCommands d w msg) s).2.slots = s.slots ∧
    (runCommands (processCommands d w msg) s).2.pos =
      some ((fun p => advance p m.fast.notch m.middle.notch)^[msg.length] w)

/-- R167: `process` is restartable: its output depends on the rotors, the window, the direction and the letters only. -/
def Obligations.ProcessIsRestartable : Prop :=
  ∀ (d : Direction) (w : Triple) (msg : List Letter) (s t : State), s.slots = t.slots →
    processOutput d w msg s = processOutput d w msg t

/-- R167: decrypting what was encrypted, with the same window and rotors, gives the message back. -/
def Obligations.MessageRoundTrip : Prop :=
  ∀ (w : Triple) (msg : List Letter) (s : State), s.complete = true → TablesValid s →
    processOutput .decrypt w (processOutput .encrypt w msg s) (runCommands (processCommands .encrypt w msg) s).2 = msg

/-- R213: after reset, one valid `LDROT` per slot in any order and then `SETW` answer `OK`, and then `ENC`, `DEC`, `STEP`,
`XFME` and `XFMD` answer `OK` for every letter. -/
def Obligations.BringUpReadiesMachine : Prop :=
  ∀ (a b c : Slot) (da db dc : RotorDef) (w : Triple) (x : Letter) (i : Instr), a ≠ b → b ≠ c → a ≠ c →
    (∀ d ∈ [da, db, dc], validateHw d.entries = true ∧ d.notch.toNat < 26) →
    i ∈ [Instr.enc (letterCode x), .dec (letterCode x), .step, .xfme (letterCode x), .xfmd (letterCode x)] →
    (runCommands [.ldrot (BitVec.ofNat 2 a.val) da, .ldrot (BitVec.ofNat 2 b.val) db,
      .ldrot (BitVec.ofNat 2 c.val) dc, setwOf w, i] State.reset).1.length = 5 ∧
    AllOk (runCommands [.ldrot (BitVec.ofNat 2 a.val) da, .ldrot (BitVec.ofNat 2 b.val) db,
      .ldrot (BitVec.ofNat 2 c.val) dc, setwOf w, i] State.reset).1

/-! ## The sub-blocks in bits -/

/-- R131: the hardware form of `pos_next` is `advance`. -/
def Obligations.PosNextIsAdvance : Prop :=
  ∀ (p : Triple) (nf nm : Letter),
    posNext (packTriple p) (letterCode nf) (letterCode nm) = packTriple (advance p nf nm)

/-- R127, R40: `rotor_stepper`, driven as `enigma_core` drives it for a command, holds after the command what the
state says. -/
def Obligations.StepperBlockFollowsCommands : Prop :=
  ∀ (i : Instr) (s s' : State) (q : StepperRegs) (nf nm : Letter), StepperMatches q s →
    (∀ t ∈ s.slots[0], t.notch = nf) → (∀ t ∈ s.slots[1], t.notch = nm) → exec i s = .next s' →
    StepperMatches (stepperNext q (stepperSignals i (answeredOk s') (letterCode nf) (letterCode nm))) s'

/-- R147, R150: `permutation_xfm` in bits computes `transform` in both directions. -/
def Obligations.PermutationXfmIsTransform : Prop :=
  ∀ (c : Letter) (p : Triple) (m : Rotors) (t : Tables), inverseTables? m = some t →
    permutationXfm (letterCode c) false (packTriple p) (tableBits m.fast.wiring) (tableBits m.middle.wiring)
      (tableBits m.slow.wiring) = letterCode (transformEnc c p (forwardTables m)) ∧
    permutationXfm (letterCode c) true (packTriple p) (tableBits m.fast.wiring) (tableBits m.middle.wiring)
      (tableBits m.slow.wiring) = letterCode (transformDec c p t)

/-! ## The host's side -/

/-- R219, R220, R101: a wiring line of 26 letters in which each occurs once is handed over with its codes as entries, and
with notch 25 when line 2 is absent or blank (log entry 12: only white space), or the code of its single letter. A
wiring line of another length, or one that lacks a letter, is rejected; a line 2 that is neither blank nor one letter is
reported. Whatever is handed over has the notch that R220 gives. That a bad line 1 is reported as `InvalidWiring` also
where line 2 is bad is the model's choice, log entry 24. -/
def Obligations.LoaderRules : Prop :=
  (∀ (l1 cs : List Char) (w : Table) (x : Letter), IsPermutation w → l1 = w.toList.map alphabet →
    loadDefinition l1 none = .ok ⟨w.map letterCode, 25⟩ ∧
    (cs.all isBlank = true → loadDefinition l1 (some cs) = .ok ⟨w.map letterCode, 25⟩) ∧
    loadDefinition l1 (some [alphabet x]) = .ok ⟨w.map letterCode, letterCode x⟩ ∧
    (cs.all isBlank = false → (∀ y : Letter, cs ≠ [alphabet y]) →
      loadDefinition l1 (some cs) = .error .invalidNotch)) ∧
  (∀ (l1 : List Char) (l2 : Option (List Char)), l1.length ≠ 26 → loadDefinition l1 l2 = .error .invalidWiring) ∧
  (∀ (l1 : List Char) (l2 : Option (List Char)) (x : Letter), alphabet x ∉ l1 →
    loadDefinition l1 l2 = .error .invalidWiring) ∧
  (∀ (l1 : List Char) (d : RotorDef), loadDefinition l1 none = .ok d → d.notch = 25) ∧
  (∀ (l1 cs : List Char) (d : RotorDef), cs.all isBlank = true → loadDefinition l1 (some cs) = .ok d →
    d.notch = 25) ∧
  (∀ (l1 cs : List Char), cs.all isBlank = false → (∀ x : Letter, cs ≠ [alphabet x]) →
    ∃ e, loadDefinition l1 (some cs) = .error e) ∧
  ∀ (l1 : List Char) (x : Letter) (d : RotorDef), loadDefinition l1 (some [alphabet x]) = .ok d → d.notch = letterCode x

/-- R219, R220: what the loader hands over, `LDROT` accepts in every state. -/
def Obligations.LoaderHandsOverValidRotors : Prop :=
  ∀ (l1 : List Char) (l2 : Option (List Char)) (d : RotorDef) (r : BitVec 2) (s : State),
    loadDefinition l1 l2 = .ok d → r ≠ 3 → ∃ s', exec (.ldrot r d) s = .next s' ∧ s'.rsp = some ⟨.ok, 0⟩

/-- R223: encryption output for display: the letters in order, one space after every block of five that another letter
follows. -/
def Obligations.CipherTextInFives : Prop :=
  ∀ l : List Letter,
    (groupFives 0 l).filter (fun ch => ch != ' ') = l.map alphabet ∧
    (groupFives 0 l).length = l.length + (l.length - 1) / 5 ∧
    ∀ i, i < (groupFives 0 l).length → ((groupFives 0 l)[i]? = some ' ' ↔ i % 6 = 5)
end

