-- ==== Sys2Proof/Laws/Arith.lean ====
section
/-! SUPPORT. Arithmetic modulo 26 as naturals, its cancellation laws, and the letter codes. -/

namespace Sys2Proof.Machine

theorem add26_val (a b : Letter) : (add26 a b).val = (a.val + b.val) % 26 := by
  unfold add26; split <;> simp only <;> omega

theorem sub26_val (a b : Letter) : (sub26 a b).val = (a.val + 26 - b.val) % 26 := by
  unfold sub26; split <;> simp only <;> omega

theorem inc26_val (a : Letter) : (inc26 a).val = (a.val + 1) % 26 := by
  simp [inc26, add26_val]

@[simp] theorem sub26_add26 (x p : Letter) : sub26 (add26 x p) p = x := by
  apply Fin.ext; rw [sub26_val, add26_val]; omega

@[simp] theorem add26_sub26 (x p : Letter) : add26 (sub26 x p) p = x := by
  apply Fin.ext; rw [add26_val, sub26_val]; omega

theorem inc26_injective {a b : Letter} (h : inc26 a = inc26 b) : a = b := by
  have := congrArg Fin.val h; rw [inc26_val, inc26_val] at this; apply Fin.ext; omega

theorem inc26_ne (a : Letter) : inc26 a ≠ a := by
  intro h; have := congrArg Fin.val h; rw [inc26_val] at this; omega

@[simp] theorem letterCode_toNat (x : Letter) : (letterCode x).toNat = x.val := by
  simp [letterCode]; omega

theorem letterCode_injective {x y : Letter} (h : letterCode x = letterCode y) : x = y := by
  apply Fin.ext; rw [← letterCode_toNat x, ← letterCode_toNat y, h]

@[simp] theorem letterOfCode_letterCode (x : Letter) : letterOfCode? (letterCode x) = some x := by
  simp [letterOfCode?]

/-- A code is a letter exactly when it is the letter's code. -/
theorem letterOfCode_eq_some {c : Code} {x : Letter} : letterOfCode? c = some x ↔ c.toNat = x.val := by
  unfold letterOfCode?
  split
  · constructor
    · intro h; cases h; rfl
    · intro h; congr 1; exact Fin.ext h
  · constructor
    · intro h; cases h
    · intro h; omega

theorem letterOfCode_eq_none {c : Code} : letterOfCode? c = none ↔ 26 ≤ c.toNat := by
  unfold letterOfCode?; split <;> simp <;> omega

/-- Equal codes are equal numbers; the code of a letter is met by that letter alone. -/
theorem eq_letterCode_iff {c : Code} {x : Letter} : c = letterCode x ↔ c.toNat = x.val := by
  rw [← letterCode_toNat x]; exact BitVec.toNat_inj.symm

end Sys2Proof.Machine
end

