-- ==== Sys2Proof/Laws/State.lean ====
section
/-! SUPPORT. One lemma per field of the state per update, true by definition. -/

namespace Sys2Proof.Machine

variable (s : State)

@[simp] theorem respond_slots (st : Status) (l : Letter) : (respond st l s).slots = s.slots := rfl
@[simp] theorem respond_pos (st : Status) (l : Letter) : (respond st l s).pos = s.pos := rfl
@[simp] theorem respond_rsp (st : Status) (l : Letter) : (respond st l s).rsp = some ⟨st, l⟩ := rfl
@[simp] theorem respond_host (st : Status) (l : Letter) : (respond st l s).host = s.host := rfl

@[simp] theorem raise_slots (e : Err) : (raise e s).slots = s.slots := rfl
@[simp] theorem raise_pos (e : Err) : (raise e s).pos = s.pos := rfl
@[simp] theorem raise_rsp (e : Err) : (raise e s).rsp = some ⟨.err e, 0⟩ := rfl
@[simp] theorem raise_host (e : Err) : (raise e s).host = s.host := rfl

@[simp] theorem loadSlot_slots (r : Slot) (rot : Rotor) :
    (loadSlot r rot s).slots = s.slots.set r (some rot) := rfl
@[simp] theorem loadSlot_pos (r : Slot) (rot : Rotor) : (loadSlot r rot s).pos = s.pos := rfl
@[simp] theorem loadSlot_rsp (r : Slot) (rot : Rotor) : (loadSlot r rot s).rsp = s.rsp := rfl
@[simp] theorem loadSlot_host (r : Slot) (rot : Rotor) : (loadSlot r rot s).host = s.host := rfl

@[simp] theorem clearWindow_slots : (clearWindow s).slots = s.slots := rfl
@[simp] theorem clearWindow_pos : (clearWindow s).pos = none := rfl
@[simp] theorem clearWindow_rsp : (clearWindow s).rsp = s.rsp := rfl
@[simp] theorem clearWindow_host : (clearWindow s).host = s.host := rfl

@[simp] theorem setTriple_slots (p : Triple) : (setTriple p s).slots = s.slots := rfl
@[simp] theorem setTriple_pos (p : Triple) : (setTriple p s).pos = some p := rfl
@[simp] theorem setTriple_rsp (p : Triple) : (setTriple p s).rsp = s.rsp := rfl
@[simp] theorem setTriple_host (p : Triple) : (setTriple p s).host = s.host := rfl

@[simp] theorem holdState_slots : (holdState s).slots = s.slots := rfl
@[simp] theorem holdState_pos : (holdState s).pos = s.pos := rfl
@[simp] theorem holdState_rsp : (holdState s).rsp = none := rfl
@[simp] theorem holdState_host : (holdState s).host = s.host := rfl

@[simp] theorem resetCore_slots : (resetCore s).slots = #v[none, none, none] := rfl
@[simp] theorem resetCore_pos : (resetCore s).pos = none := rfl
@[simp] theorem resetCore_rsp : (resetCore s).rsp = none := rfl
@[simp] theorem resetCore_host : (resetCore s).host = s.host := rfl

/-- `rv` and `pv` read the slots and the triple. -/
theorem rv_of_slots {s t : State} (h : s.slots = t.slots) (r : Slot) : s.rv r = t.rv r := by
  simp [State.rv, h]

theorem pv_of_pos {s t : State} (h : s.pos = t.pos) : s.pv = t.pv := by
  simp [State.pv, h]

end Sys2Proof.Machine
end

