-- ==== Sys2Proof/Laws/Ops.lean ====
section
/-! SUPPORT. What each shared operation can do, said once: the rotors of a machine, the checks, the tables. -/

namespace Sys2Proof.Machine

theorem rotorsOf_eq_some {s : State} {m : Rotors} :
    rotorsOf? s = some m ↔
      s.slots[0] = some m.fast ∧ s.slots[1] = some m.middle ∧ s.slots[2] = some m.slow := by
  unfold rotorsOf?
  cases h0 : s.slots[0] <;> cases h1 : s.slots[1] <;> cases h2 : s.slots[2] <;> cases m <;> simp

/-- A machine is complete exactly when it has three rotors (R26). -/
theorem complete_eq_isSome (s : State) : s.complete = (rotorsOf? s).isSome := by
  unfold State.complete State.rv rotorsOf?
  cases h0 : s.slots[0] <;> cases h1 : s.slots[1] <;> cases h2 : s.slots[2] <;> simp_all

theorem rotorsOf_eq_none {s : State} : rotorsOf? s = none ↔ s.complete = false := by
  rw [complete_eq_isSome]; simp

theorem State.Holds.rotors {s : State} {m : Rotors} {p : Triple} (h : s.Holds m p) : rotorsOf? s = some m :=
  rotorsOf_eq_some.2 ⟨h.fast, h.middle, h.slow⟩

/-- Two states with the same slots have the same rotors. -/
theorem rotorsOf_of_slots {s t : State} (h : s.slots = t.slots) : rotorsOf? s = rotorsOf? t := by
  simp [rotorsOf?, h]

theorem whenComplete_next {s s' : State} {k : Rotors → Outcome} (h : whenComplete s k = .next s') :
    (rotorsOf? s = none ∧ s' = raise .incompleteMachine s) ∨ ∃ m, rotorsOf? s = some m ∧ k m = .next s' := by
  unfold whenComplete at h
  split at h
  · exact .inl ⟨‹_›, by simpa using h.symm⟩
  · exact .inr ⟨_, ‹_›, h⟩

theorem whenWindow_next {s s' : State} {k : Triple → Outcome} (h : whenWindow s k = .next s') :
    (s.pos = none ∧ s' = raise .windowNotSet s) ∨ ∃ p, s.pos = some p ∧ k p = .next s' := by
  unfold whenWindow at h
  split at h
  · exact .inl ⟨‹_›, by simpa using h.symm⟩
  · exact .inr ⟨_, ‹_›, h⟩

theorem whenLetter_next {c : Code} {s s' : State} {k : Letter → Outcome} (h : whenLetter c s k = .next s') :
    (letterOfCode? c = none ∧ s' = raise .invalidLetter s) ∨
      ∃ x, letterOfCode? c = some x ∧ k x = .next s' := by
  unfold whenLetter at h
  split at h
  · exact .inl ⟨‹_›, by simpa using h.symm⟩
  · exact .inr ⟨_, ‹_›, h⟩

theorem withInverses_next {m : Rotors} {k : Tables → Outcome} {s' : State} (h : withInverses m k = .next s') :
    ∃ t, inverseTables? m = some t ∧ k t = .next s' := by
  unfold withInverses at h
  split at h
  · cases h
  · exact ⟨_, ‹_›, h⟩

theorem withInverses_of {m : Rotors} {t : Tables} (h : inverseTables? m = some t) (k : Tables → Outcome) :
    withInverses m k = k t := by
  unfold withInverses; rw [h]

theorem whenComplete_of {s : State} {m : Rotors} (h : rotorsOf? s = some m) (k : Rotors → Outcome) :
    whenComplete s k = k m := by
  unfold whenComplete; rw [h]

theorem whenComplete_of_none {s : State} (h : rotorsOf? s = none) (k : Rotors → Outcome) :
    whenComplete s k = .next (raise .incompleteMachine s) := by
  unfold whenComplete; rw [h]

theorem whenWindow_of {s : State} {p : Triple} (h : s.pos = some p) (k : Triple → Outcome) :
    whenWindow s k = k p := by
  unfold whenWindow; rw [h]

theorem whenWindow_of_none {s : State} (h : s.pos = none) (k : Triple → Outcome) :
    whenWindow s k = .next (raise .windowNotSet s) := by
  unfold whenWindow; rw [h]

/-- The checks of a letter command in the order of R193: one of three errors, or the machine was ready. -/
theorem whenReady_next {c : Code} {s s' : State} {k : Rotors → Triple → Letter → Outcome}
    (h : whenReady c s k = .next s') :
    (∃ e, s' = raise e s) ∨
      ∃ m p x, rotorsOf? s = some m ∧ s.pos = some p ∧ letterOfCode? c = some x ∧ k m p x = .next s' := by
  obtain ⟨-, rfl⟩ | ⟨m, hm, h⟩ := whenComplete_next h
  · exact .inl ⟨_, rfl⟩
  obtain ⟨-, rfl⟩ | ⟨p, hp, h⟩ := whenWindow_next h
  · exact .inl ⟨_, rfl⟩
  obtain ⟨-, rfl⟩ | ⟨x, hx, h⟩ := whenLetter_next h
  · exact .inl ⟨_, rfl⟩
  exact .inr ⟨m, p, x, hm, hp, hx, h⟩

theorem whenReady_of_ready {c : Code} {s : State} {m : Rotors} {p : Triple} {x : Letter}
    (hs : s.Holds m p) (hc : c.toNat = x.val) (k : Rotors → Triple → Letter → Outcome) :
    whenReady c s k = k m p x := by
  simp [whenReady, whenComplete, whenWindow, whenLetter, hs.rotors, hs.window, letterOfCode_eq_some.2 hc]

/-- A table is a permutation exactly when no two contacts share an output letter (R101). -/
theorem isPermutation_iff_injective (w : Table) :
    IsPermutation w ↔ ∀ i k : Letter, w[i] = w[k] → i = k := by
  constructor
  · intro h i k hik
    obtain ⟨a, -, ha⟩ := h w[k]
    rw [ha i hik, ha k rfl]
  · intro h j
    have hinj : Function.Injective fun i : Letter => w[i] := fun i k hik => h i k hik
    obtain ⟨i, hi⟩ := (Finite.injective_iff_surjective.1 hinj) j
    exact ⟨i, hi, fun k hk => h k i (hk.trans hi.symm)⟩

theorem scan_some {w : Table} {i j : Letter} (h : scan w j = some i) : w[i] = j := by
  have := List.find?_some h; simpa using this

theorem scan_isSome {w : Table} {j : Letter} : (scan w j).isSome = true ↔ ∃ i : Letter, w[i] = j := by
  simp [scan, List.find?_isSome]

/-- In a permutation the scan finds the one contact of a letter. -/
theorem scan_eq_some {w : Table} (hw : IsPermutation w) {i j : Letter} : scan w j = some i ↔ w[i] = j := by
  refine ⟨scan_some, fun h => ?_⟩
  obtain ⟨k, hk⟩ := Option.isSome_iff_exists.1 (scan_isSome.2 ⟨i, h⟩)
  rw [hk, (isPermutation_iff_injective w).1 hw k i ((scan_some hk).trans h.symm)]

theorem invert_eq_some {w v : Table} (h : invert? w = some v) (j : Letter) : scan w j = some v[j] := by
  unfold invert? at h
  split at h
  · rw [← Option.some.inj h]; simp
  · exact nomatch h

/-- A loaded slot holds the new rotor; the others hold what they held. -/
theorem loadSlot_slot (s : State) (r q : Slot) (rot : Rotor) :
    (loadSlot r rot s).slots[q] = if r = q then some rot else s.slots[q] := by
  rw [loadSlot_slots]
  by_cases h : r = q
  · simp [h]
  · have : r.val ≠ q.val := fun e => h (Fin.ext e)
    simp [this, h]

/-- Loading a permutation into a slot keeps every table valid. -/
theorem loadSlot_tablesValid {s : State} {r : Slot} {rot : Rotor} (hs : TablesValid s)
    (hw : IsPermutation rot.wiring) : TablesValid (loadSlot r rot s) := by
  intro q t ht
  rw [loadSlot_slot] at ht
  split at ht
  · cases ht; exact hw
  · exact hs q t ht

end Sys2Proof.Machine
end

