-- ==== Sys2Proof/Laws/Exec.lean ====
section
/-! SUPPORT. What a command and a step can do, said once. -/

namespace Sys2Proof.Machine

/-- A command that moves the rotors (R23). -/
def movesRotors : Instr → Bool
  | .step | .enc _ | .dec _ => true
  | .nop | .ldrot _ _ | .setw _ _ _ | .xfme _ | .xfmd _ => false

/-- The ways a command answers a next state: an error, a response only, a loaded rotor, a window, one step of the
rotors. -/
inductive Effect (i : Instr) (s : State) : State → Prop where
  | error (e : Err) : Effect i s (raise e s)
  | answer (l : Letter) (hi : i = .nop ∨ (∃ c, i = .xfme c) ∨ ∃ c, i = .xfmd c) : Effect i s (respond .ok l s)
  | load (r : BitVec 2) (rot : RotorDef) (k : Slot) (w : Table) (n : Letter) (hi : i = .ldrot r rot)
      (hk : slotOf? r = some k) (hw : wiringOf? rot.entries = some w) (hn : letterOfCode? rot.notch = some n) :
      Effect i s (respond .ok 0 (clearWindow (loadSlot k ⟨w, n⟩ s)))
  | window (f m w : Code) (p : Triple) (hi : i = .setw f m w) (hw : windowOf? f m w = some p)
      (hc : s.complete = true) : Effect i s (respond .ok 0 (setTriple p s))
  | move (m : Rotors) (p : Triple) (l : Letter) (hi : movesRotors i = true) (hm : rotorsOf? s = some m)
      (hp : s.pos = some p) : Effect i s (respond .ok l (setTriple (advanceBy m p) s))

theorem complete_of_rotors {s : State} {m : Rotors} (h : rotorsOf? s = some m) : s.complete = true := by
  rw [complete_eq_isSome, h]; rfl

theorem execLdrot_next {r : BitVec 2} {rot : RotorDef} {s s' : State} (h : execLdrot r rot s = .next s') :
    Effect (.ldrot r rot) s s' := by
  unfold execLdrot at h
  split at h
  · cases h; exact .error _
  · split at h
    · cases h; exact .error _
    · split at h
      · cases h; exact .error _
      · cases h; exact .load r rot _ _ _ rfl ‹_› ‹_› ‹_›

theorem execSetw_next {f m w : Code} {s s' : State} (h : execSetw f m w s = .next s') :
    Effect (.setw f m w) s s' := by
  obtain ⟨-, rfl⟩ | ⟨r, hr, h⟩ := whenComplete_next h
  · exact .error _
  split at h
  · cases h; exact .error _
  · cases h; exact .window f m w _ rfl ‹_› (complete_of_rotors hr)

theorem execStep_next {s s' : State} (h : execStep s = .next s') : Effect .step s s' := by
  obtain ⟨-, rfl⟩ | ⟨r, hr, h⟩ := whenComplete_next h
  · exact .error _
  obtain ⟨-, rfl⟩ | ⟨p, hp, h⟩ := whenWindow_next h
  · exact .error _
  cases h; exact .move r p 0 rfl hr hp

theorem execEnc_next {c : Code} {s s' : State} (h : execEnc c s = .next s') : Effect (.enc c) s s' := by
  obtain ⟨e, rfl⟩ | ⟨m, p, x, hm, hp, -, h⟩ := whenReady_next h
  · exact .error _
  cases h; exact .move m p _ rfl hm hp

theorem execDec_next {c : Code} {s s' : State} (h : execDec c s = .next s') : Effect (.dec c) s s' := by
  obtain ⟨e, rfl⟩ | ⟨m, p, x, hm, hp, -, h⟩ := whenReady_next h
  · exact .error _
  obtain ⟨t, -, h⟩ := withInverses_next h
  cases h; exact .move m p _ rfl hm hp

theorem execXfme_next {c : Code} {s s' : State} (h : execXfme c s = .next s') : Effect (.xfme c) s s' := by
  obtain ⟨e, rfl⟩ | ⟨m, p, x, -, -, -, h⟩ := whenReady_next h
  · exact .error _
  cases h; exact .answer _ (.inr (.inl ⟨c, rfl⟩))

theorem execXfmd_next {c : Code} {s s' : State} (h : execXfmd c s = .next s') : Effect (.xfmd c) s s' := by
  obtain ⟨e, rfl⟩ | ⟨m, p, x, -, -, -, h⟩ := whenReady_next h
  · exact .error _
  obtain ⟨t, -, h⟩ := withInverses_next h
  cases h; exact .answer _ (.inr (.inr ⟨c, rfl⟩))

theorem exec_next {i : Instr} {s s' : State} (h : exec i s = .next s') : Effect i s s' := by
  cases i with
  | nop => cases h; exact .answer 0 (.inl rfl)
  | ldrot r rot => exact execLdrot_next h
  | setw f m w => exact execSetw_next h
  | step => exact execStep_next h
  | enc c => exact execEnc_next h
  | dec c => exact execDec_next h
  | xfme c => exact execXfme_next h
  | xfmd c => exact execXfmd_next h

/-- The ways a step answers a next state: the core is reset, it holds, a word that is no command is refused in the
response, or a command has its effect; in each the host's first move is spent. -/
inductive StepEffect (s : State) : State → Prop where
  | reset (h : resetsNext s = true) : StepEffect s (resetCore { s with host := s.host.tail })
  | hold (h : resetsNext s = false) (ha : acceptedCommand? s = none) :
      StepEffect s (holdState { s with host := s.host.tail })
  | illegal (h : resetsNext s = false) (ha : acceptedCommand? s = none) :
      StepEffect s (raise .illegalCommand { s with host := s.host.tail })
  | command (i : Instr) (h : resetsNext s = false) (ha : acceptedCommand? s = some i) (s' : State)
      (he : Effect i { s with host := s.host.tail } s') : StepEffect s s'

theorem step_next {s s' : State} (h : step s = .next s') : StepEffect s s' := by
  unfold step serve at h
  split at h
  next hh =>
    have : s' = holdState { s with host := s.host.tail } := by
      cases s; cases hh; cases h; rfl
    rw [this]
    exact .hold (by simp [resetsNext, hh]) (by simp [acceptedCommand?, hh])
  next m rest hh =>
    have ht : rest = s.host.tail := by simp [hh]
    rw [ht] at h
    cases m with
    | edge e =>
      simp only [runMove, runEdge] at h
      split at h
      · cases h; exact .reset (by simp_all [resetsNext])
      · split at h
        · unfold runCommand at h
          split at h
          · exact .command _ (by simp_all [resetsNext]) (by simp_all [acceptedCommand?, Except.toOption]) _
              (exec_next h)
          · cases h
            exact .illegal (by simp_all [resetsNext]) (by simp_all [acceptedCommand?, Except.toOption])
        · cases h
          exact .hold (by simp_all [resetsNext]) (by simp_all [acceptedCommand?])
    | resetInFlight c r => cases h; exact .reset (by simp [resetsNext, hh])
    | breach b => cases h

end Sys2Proof.Machine
end

