-- ==== Sys2Proof/Laws/HostSide.lean ====
section
/-! SUPPORT. What the preprocessing of raw text can do (R222), and the letter names. -/

namespace Sys2Proof.Machine

theorem alphabetIndex_alphabet (x : Letter) : alphabetIndex? (alphabet x) = some x := by revert x; decide

theorem isBlank_alphabet (x : Letter) : isBlank (alphabet x) = false := by revert x; decide

/-- Every base letter of the table of accented vowels is one of `A`, `E`, `I`, `O`, `U`, `Y`. -/
theorem accentRuns_vowels : ∀ r ∈ accentRuns, r.vowel ∈ ['A', 'E', 'I', 'O', 'U', 'Y'] := by decide +kernel

/-- No character of ASCII is an accented vowel. -/
theorem accentRuns_above_ascii : ∀ r ∈ accentRuns, 128 ≤ r.first := by decide +kernel

theorem accentedVowel_of_ascii {c : Char} (h : c.toNat < 128) : accentedVowel? c = none := by
  unfold accentedVowel?
  rw [Option.map_eq_none_iff, List.find?_eq_none]
  intro r hr
  have := accentRuns_above_ascii r hr
  simp only [decide_eq_true_eq]
  omega

theorem accentedVowel_vowel {c v : Char} (h : accentedVowel? c = some v) : v ∈ ['A', 'E', 'I', 'O', 'U', 'Y'] := by
  unfold accentedVowel? at h
  obtain ⟨r, hr, rfl⟩ := Option.map_eq_some_iff.1 h
  exact accentRuns_vowels r (List.mem_of_find?_eq_some hr)

theorem foldAccent_of_none {c : Char} (h : accentedVowel? c = none) : foldAccent c = c := by simp [foldAccent, h]

/-- Whatever is no accented vowel: the letter of its upper case, or dropped. -/
theorem plainLetter_of_none {c : Char} (h : accentedVowel? c.toUpper = none) :
    plainLetter? c = alphabetIndex? c.toUpper := by rw [plainLetter?, foldAccent_of_none h]

/-- An accented vowel: its base letter where the host folds it, else dropped like every other character. -/
theorem plainLetter_of_accent {c v : Char} (h : accentedVowel? c.toUpper = some v) :
    plainLetter? c = if Config.foldsAccent c.toUpper then alphabetIndex? v else alphabetIndex? c.toUpper := by
  simp only [plainLetter?, foldAccent, h]
  split <;> rfl

end Sys2Proof.Machine
end

