-- ==== Sys2Proof/Laws/PerInstr.lean ====
section
/-! SUPPORT. Per-instruction families about the commands as syntax. -/

namespace Sys2Proof.Laws

/-- The encoding of a command carries that command's opcode in `cmd[19:16]`, and no reserved one (R72, R75). -/
def EncodesOwnOpcode.Statement (i : Instr) : Prop :=
  (encode i).1.extractLsb' 16 4 = opcode (opOf i) ∧ (encode i).1.getLsbD 19 = false

/-- An opcode before a payload is the word's upper four bits, and the upper bit of the word is that of the opcode. -/
theorem opcode_of_word (o : BitVec 4) (p : BitVec 16) :
    (o ++ p).extractLsb' 16 4 = o ∧ (o ++ p).getLsbD 19 = o.getLsbD 3 := by
  constructor
  · exact BitVec.extractLsb'_append_eq_left
  · rw [BitVec.getLsbD_append]; simp

theorem opcode_top (o : Op) : (opcode o).getLsbD 3 = false := by cases o <;> decide

theorem EncodesOwnOpcode.of_word (i : Instr) : EncodesOwnOpcode.Statement i :=
  ⟨(opcode_of_word _ _).1, (opcode_of_word _ _).2.trans (opcode_top _)⟩

theorem EncodesOwnOpcode.nop : EncodesOwnOpcode.Statement .nop := of_word _
theorem EncodesOwnOpcode.ldrot (r : BitVec 2) (rot : RotorDef) : EncodesOwnOpcode.Statement (.ldrot r rot) :=
  of_word _
theorem EncodesOwnOpcode.setw (f m s : Code) : EncodesOwnOpcode.Statement (.setw f m s) := of_word _
theorem EncodesOwnOpcode.step : EncodesOwnOpcode.Statement .step := of_word _
theorem EncodesOwnOpcode.enc (c : Code) : EncodesOwnOpcode.Statement (.enc c) := of_word _
theorem EncodesOwnOpcode.dec (c : Code) : EncodesOwnOpcode.Statement (.dec c) := of_word _
theorem EncodesOwnOpcode.xfme (c : Code) : EncodesOwnOpcode.Statement (.xfme c) := of_word _
theorem EncodesOwnOpcode.xfmd (c : Code) : EncodesOwnOpcode.Statement (.xfmd c) := of_word _

end Sys2Proof.Laws
end

