-- ==== Sys2Proof/Laws/Stepping.lean ====
section
/-! SUPPORT. The carries and the three parts of `advance`, with the conditions as equations (R121). -/

namespace Sys2Proof.Machine

theorem carryToSlow_iff {m nm : Letter} : carryToSlow m nm = true ↔ m = nm := by simp [carryToSlow]

theorem carryToMiddle_iff {f m nf nm : Letter} : carryToMiddle f m nf nm = true ↔ f = nf ∨ m = nm := by
  simp [carryToMiddle, carryToSlow]

theorem advance_fast (p : Triple) (nf nm : Letter) : (advance p nf nm).fast = inc26 p.fast := rfl

theorem advance_middle (p : Triple) (nf nm : Letter) :
    (advance p nf nm).middle = if p.fast = nf ∨ p.middle = nm then inc26 p.middle else p.middle := by
  show (if carryToMiddle p.fast p.middle nf nm = true then _ else _) = _
  exact if_congr carryToMiddle_iff rfl rfl

theorem advance_slow (p : Triple) (nf nm : Letter) :
    (advance p nf nm).slow = if p.middle = nm then inc26 p.slow else p.slow := by
  show (if carryToSlow p.middle nm = true then _ else _) = _
  exact if_congr carryToSlow_iff rfl rfl

end Sys2Proof.Machine
end

