-- ==== Sys2Proof/Tests/Slice0.lean ====
section
/-! SUPPORT. Tests of one step each, with results from 95_test_vectors.md and the rules, and for every statement with
hypotheses a concrete case that meets them (`witness_<statement>`, with a clause name where it has several). -/

namespace Sys2Proof.Tests

open Sys2Proof Sys2Proof.Machine

-- Checked one after another: side by side, this many small proofs take more threads than the check allows.
set_option Elab.async false

/-! ## Set K of 95_test_vectors.md section 2 -/

def k0 : Table := #v[4, 10, 12, 5, 11, 6, 3, 16, 21, 25, 13, 19, 14, 22, 24, 7, 23, 20, 18, 15, 0, 8, 1, 17, 2, 9]
def k1 : Table := #v[0, 9, 3, 10, 18, 8, 17, 20, 23, 1, 11, 7, 22, 19, 12, 2, 16, 6, 25, 13, 15, 24, 5, 21, 14, 4]
def k2 : Table := #v[1, 3, 5, 7, 9, 11, 2, 15, 17, 19, 23, 21, 25, 13, 24, 4, 8, 22, 6, 0, 10, 12, 20, 18, 16, 14]
def identity : Table := Vector.ofFn id
/-- Not a permutation: 26 x `A`. -/
def allA : Table := Vector.replicate 26 0

def rotorsK : Rotors := ⟨⟨k0, 16⟩, ⟨k1, 4⟩, ⟨k2, 21⟩⟩

/-- The `rot_i` word of set K, slot 0. -/
def rotK0 : RotWord := 0x4122885007CA973E2CE9B73580CCB2B144
def defK0 : RotorDef := ⟨k0.map letterCode, 16⟩

/-- A complete machine with set K at a triple. -/
def machineAt (p : Option Triple) : State :=
  { slots := #v[some ⟨k0, 16⟩, some ⟨k1, 4⟩, some ⟨k2, 21⟩], pos := p, rsp := none, host := [] }

/-- The same with slot 2 loaded from a table that is no permutation: no reachable state. -/
def badMachine (p : Triple) : State := { machineAt (some p) with slots := #v[some ⟨k0, 16⟩, some ⟨k1, 4⟩, some ⟨allA, 21⟩] }

/-- The state a step leads to. -/
def nextOf? : Outcome → Option State
  | .next s => some s
  | .fault _ => none
  | .refused _ => none

/-- The response word that serving a command leaves on the port. -/
def answer? (cmd : CmdWord) (rotI : RotWord) (s : State) : Option RspWord :=
  ((nextOf? (runCommand cmd rotI s)).bind State.rsp).map responseWord

/-- The triple that serving a command leaves. -/
def triple? (cmd : CmdWord) (s : State) : Option Triple := (nextOf? (runCommand cmd 0 s)).bind State.pos

theorem k0_perm : IsPermutation k0 := (isPermutation_iff_injective k0).2 (by decide +kernel)
theorem k1_perm : IsPermutation k1 := (isPermutation_iff_injective k1).2 (by decide +kernel)
theorem k2_perm : IsPermutation k2 := (isPermutation_iff_injective k2).2 (by decide +kernel)
theorem identity_perm : IsPermutation identity := (isPermutation_iff_injective identity).2 (by decide +kernel)
theorem allA_not_perm : ¬IsPermutation allA := fun h =>
  absurd ((isPermutation_iff_injective allA).1 h 0 1) (by decide +kernel)

theorem machineAt_valid (p : Option Triple) : TablesValid (machineAt p) := by
  intro r rot h
  match r with
  | 0 => rw [← Option.some.inj h]; exact k0_perm
  | 1 => rw [← Option.some.inj h]; exact k1_perm
  | 2 => rw [← Option.some.inj h]; exact k2_perm

theorem machineAt_holds (p : Triple) : (machineAt (some p)).Holds rotorsK p := ⟨rfl, rfl, rfl, rfl⟩

/-! ## Well-formedness: the one check and a term it refuses -/

theorem test_slot_three_is_ill_formed : (Instr.ldrot 3 defK0).wellFormed = false := by decide
theorem test_slot_two_is_well_formed : (Instr.ldrot 2 defK0).wellFormed = true := by decide
theorem test_code_31_is_a_legal_field : (Instr.enc 31).wellFormed = true := by decide

/-! ## Decoding: words written out bit by bit from R71, R72 and 95_test_vectors.md section 3 -/

theorem test_decode_nop : decode 0b0000_0000000000000000#20 0 = .ok .nop := by decide +kernel
theorem test_decode_ldrot : decode 0b0001_00000000000000_00#20 rotK0 = .ok (.ldrot 0 defK0) := by decide +kernel
theorem test_decode_ldrot_slot : decode 0b0001_00000000000000_10#20 rotK0 = .ok (.ldrot 2 defK0) := by decide +kernel
theorem test_decode_setw : decode 0b0010_0_10101_00100_10000#20 0 = .ok (.setw 16 4 21) := by decide +kernel
theorem test_decode_setw_oda : decode 0x2006E 0 = .ok (.setw 14 3 0) := by decide +kernel
theorem test_decode_step : decode 0b0011_0000000000000000#20 0 = .ok .step := by decide +kernel
theorem test_decode_enc : decode 0b0100_00000000000_00111#20 0 = .ok (.enc 7) := by decide +kernel
theorem test_decode_dec : decode 0b0101_00000000000_00111#20 0 = .ok (.dec 7) := by decide +kernel
theorem test_decode_xfme : decode 0b0110_00000000000_00111#20 0 = .ok (.xfme 7) := by decide +kernel
theorem test_decode_xfmd : decode 0b0111_00000000000_00111#20 0 = .ok (.xfmd 7) := by decide +kernel
theorem test_decode_reserved_opcodes :
    decode 0x80000 0 = .error .reservedOpcode ∧ decode 0xFFFFF 0 = .error .reservedOpcode := by decide +kernel
theorem test_decode_reserved_bits :
    decode 0x00001 0 = .error .reservedBits ∧ decode 0x30001 0 = .error .reservedBits ∧
    decode 0x28000 0 = .error .reservedBits ∧ decode 0x40020 0 = .error .reservedBits ∧
    decode 0x10004 0 = .error .reservedBits := by decide +kernel
theorem test_decode_slot_three : decode 0x10003 rotK0 = .error .noSuchSlot := by decide +kernel
theorem test_encode_rot : packRotor defK0 = rotK0 := by decide +kernel
theorem test_table_word : decodeTableWord 24 0x40007 = some (.enc 7) := by decide +kernel
theorem test_table_word_too_wide : decodeTableWord 24 0x100000 = none := by decide +kernel
theorem test_fetch_word : step (State.reset.withFetchWord 24 0x30000) = exec .step State.reset := rfl

/-! ## Commands: sections 4 to 8 of 95_test_vectors.md -/

theorem test_nop_on_reset : answer? 0x00000 0 State.reset = some 0x00 := by decide +kernel
theorem test_nop_reserved : answer? 0x00001 0 State.reset = some 0xE0 := by decide +kernel
theorem test_ldrot_loads : nextOf? (runCommand 0x10000 rotK0 State.reset) =
    some { slots := #v[some ⟨k0, 16⟩, none, none], pos := none, rsp := some ⟨.ok, 0⟩, host := [] } := by decide +kernel
theorem test_ldrot_errors :
    answer? 0x10000 0x6738BDAB49CA307B9AC5A928398A418800 State.reset = some 0x20 ∧
    answer? 0x10000 0x6738BDAB49CA307B9AC5A928398A41883A State.reset = some 0x20 ∧
    answer? 0x10000 0x6922885007CA973E2CE9B73580CCB2B144 State.reset = some 0x80 ∧
    answer? 0x10003 rotK0 State.reset = some 0xE0 := by decide +kernel
theorem test_setw : triple? 0x25490 (machineAt none) = some ⟨16, 4, 21⟩ := by decide +kernel
theorem test_setw_errors :
    answer? 0x20000 0 State.reset = some 0x60 ∧ answer? 0x2001A 0 (machineAt none) = some 0x40 := by decide +kernel
theorem test_step_both_at_notch : triple? 0x30000 (machineAt (some ⟨16, 4, 0⟩)) = some ⟨17, 5, 1⟩ := by decide +kernel
theorem test_step_errors :
    answer? 0x30000 0 State.reset = some 0x60 ∧ answer? 0x30000 0 (machineAt none) = some 0xC0 := by decide +kernel
theorem test_enc : answer? 0x40007 0 (machineAt (some ⟨0, 0, 0⟩)) = some 0x04 ∧
    triple? 0x40007 (machineAt (some ⟨0, 0, 0⟩)) = some ⟨1, 0, 0⟩ := by decide +kernel
theorem test_enc_bad_letter : answer? 0x4001A 0 (machineAt (some ⟨0, 0, 0⟩)) = some 0xA0 ∧
    triple? 0x4001A (machineAt (some ⟨0, 0, 0⟩)) = some ⟨0, 0, 0⟩ := by decide +kernel
theorem test_dec : answer? 0x50004 0 (machineAt (some ⟨0, 0, 0⟩)) = some 0x07 ∧
    triple? 0x50004 (machineAt (some ⟨0, 0, 0⟩)) = some ⟨1, 0, 0⟩ := by decide +kernel
theorem test_xfme : answer? 0x60000 0 (machineAt (some ⟨17, 5, 1⟩)) = some 0x19 ∧
    triple? 0x60000 (machineAt (some ⟨17, 5, 1⟩)) = some ⟨17, 5, 1⟩ := by decide +kernel
theorem test_xfmd : answer? 0x70019 0 (machineAt (some ⟨17, 5, 1⟩)) = some 0x00 ∧
    answer? 0x70000 0 (machineAt (some ⟨17, 5, 1⟩)) = some 0x0D := by decide +kernel
theorem test_xfmd_window_not_set : answer? 0x70000 0 (machineAt none) = some 0xC0 := by decide +kernel

/-! ## Witnesses: encoding -/

theorem witness_DecodeOfEncode : (Instr.ldrot 2 defK0).wellFormed = true ∧ (Instr.enc 31).wellFormed = true := by decide

theorem witness_EncodeOfDecode : decode 0x10002 rotK0 = .ok (.ldrot 2 defK0) := by decide +kernel

/-- One word for every clause of `DecodingIsTotalInOrder`, by its opcode, payload and top bit. -/
theorem witness_DecodingIsTotalInOrder :
    (0x80000 : CmdWord).getLsbD 19 = true ∧ (0xFFFFF : CmdWord).getLsbD 19 = true ∧
    (0x00001 : CmdWord).extractLsb' 0 16 ≠ 0 ∧ (0x38000 : CmdWord).extractLsb' 0 16 ≠ 0 ∧
    (0x10004 : CmdWord).extractLsb' 2 14 ≠ 0 ∧ (0x28000 : CmdWord).getLsbD 15 = true ∧
    (0x70020 : CmdWord).extractLsb' 5 11 ≠ 0 ∧ (0x10003 : CmdWord).extractLsb' 0 2 = 3 ∧
    (0x10002 : CmdWord).extractLsb' 2 14 = 0 ∧ (0x27FFF : CmdWord).getLsbD 15 = false ∧
    (0x4001F : CmdWord).extractLsb' 5 11 = 0 := by decide

theorem witness_OnlyLdrotLooksAtRotI : (0x40007 : CmdWord).extractLsb' 16 4 ≠ 1 := by decide

theorem witness_EveryCommandResponds : TablesValid State.reset ∧ TablesValid (machineAt (some ⟨0, 0, 0⟩)) :=
  ⟨by decide +kernel, machineAt_valid _⟩
theorem witness_EveryCommandResponds_letter_clause :
    (0x00000 : CmdWord).extractLsb' 16 4 = 0 ∧ answer? 0x4001A 0 (machineAt (some ⟨0, 0, 0⟩)) = some 0xA0 := by
  decide +kernel

theorem witness_StatusOutputsShowState : (⟨25, 0, 25⟩ : Triple) ∈ (machineAt (some ⟨25, 0, 25⟩)).pos := rfl

/-! ## Witnesses: reset and the port -/

/-- A complete machine whose host makes one move. -/
def withMove (m : HostMove) : State := { machineAt (some ⟨0, 0, 0⟩) with host := [m] }

theorem witness_ResetWinsAndAloneClearsSlots :
    resetsNext (withMove (.edge ⟨true, true, 0x40007, 0⟩)) = true ∧
    resetsNext (withMove (.resetInFlight 0x40007 0)) = true := by decide
theorem witness_ResetWinsAndAloneClearsSlots_alone :
    step (withMove pressReset) = .next State.reset ∧ (withMove pressReset).rv 2 = true ∧
    State.reset.rv 2 = false := ⟨rfl, by decide, by decide⟩

theorem witness_CommandInFlightAtResetIsAbandoned :
    (withMove (.resetInFlight 0x40007 0)).host = .resetInFlight 0x40007 0 :: [] := rfl

theorem witness_StepRunsDecodedCommand :
    (withMove (present (.enc 7))).host = [.edge ⟨false, true, 0x40007, 0⟩] ∧
    decode 0x40007 0 = .ok (.enc 7) := ⟨by decide +kernel, by decide +kernel⟩
theorem witness_StepRunsDecodedCommand_rejected :
    (withMove (presentWords 0x80000 0)).host = [.edge ⟨false, true, 0x80000, 0⟩] ∧
    decode 0x80000 0 = .error .reservedOpcode := ⟨rfl, by decide +kernel⟩

theorem witness_NoCommandHoldsState :
    (machineAt none).host = [] ∧
    (withMove (.edge ⟨false, false, 0x40007, 0⟩)).host = [.edge ⟨false, false, 0x40007, 0⟩] := ⟨rfl, rfl⟩

theorem witness_BrokenHandshakeHasNoMove : (withMove (.breach .notReady)).host = [.breach .notReady] := rfl

/-! ## Witnesses: the commands -/

theorem witness_NopCommand : (0x00000 : CmdWord).extractLsb' 16 4 = 0 ∧ (0x0FFFF : CmdWord).extractLsb' 16 4 = 0 := by
  decide

theorem witness_LdrotLoadsRotor :
    (2#2).toNat = (2 : Slot).val ∧ defK0.notch.toNat < 26 ∧
    ∀ j : Letter, ∃ i : Fin 26, defK0.entries[i].toNat = j.val ∧
      ∀ q : Fin 26, defK0.entries[q].toNat = j.val → q = i := by
  refine ⟨rfl, by decide, fun j => ?_⟩
  obtain ⟨i, hi, h⟩ := k0_perm j
  have hc : ∀ q : Fin 26, defK0.entries[q].toNat = (k0[q] : Letter).val := by decide +kernel
  exact ⟨i, by rw [hc, hi], fun q hq => h q (Fin.ext ((hc q).symm.trans hq))⟩
/-- The boundary notch `Z` = 25. -/
theorem witness_LdrotLoadsRotor_notch : (25#5).toNat < 26 := by decide

/-- 26 x `A` misses `B`; the largest slot number and the first code that is no letter. -/
theorem witness_LdrotErrorsInOrder_wiring :
    (2 : BitVec 2) ≠ 3 ∧ ∀ i : Fin 26, (Vector.replicate 26 (0 : Code))[i].toNat ≠ (1 : Letter).val := by decide +kernel
theorem witness_LdrotErrorsInOrder_notch :
    (0 : BitVec 2) ≠ 3 ∧ 26 ≤ (26 : Code).toNat ∧
    ∀ j : Letter, ∃ i : Fin 26, (Vector.ofFn (fun i : Fin 26 => BitVec.ofNat 5 i.val))[i].toNat = j.val := by
  decide +kernel

theorem witness_SetwCommand_incomplete : State.reset.complete = false := by decide
theorem witness_SetwCommand_window : (machineAt none).complete = true ∧ 26 ≤ (26 : Code).toNat ∧ 26 ≤ (31 : Code).toNat := by
  decide
theorem witness_SetwCommand_sets :
    (machineAt none).complete = true ∧ (25 : Code).toNat = (⟨25, 0, 25⟩ : Triple).fast.val ∧
    (0 : Code).toNat = (⟨25, 0, 25⟩ : Triple).middle.val := by decide
theorem witness_SetwCommand_word : (0x28000 : CmdWord).extractLsb' 16 4 = 2 ∧ (0x26739 : CmdWord).extractLsb' 16 4 = 2 := by
  decide

theorem witness_StepCommand_incomplete : State.reset.complete = false := by decide
theorem witness_StepCommand_window : (machineAt none).complete = true ∧ (machineAt none).pos = none := by decide
theorem witness_StepCommand_steps : (machineAt (some ⟨25, 25, 25⟩)).Holds rotorsK ⟨25, 25, 25⟩ := machineAt_holds _
theorem witness_StepCommand_word : (0x30000 : CmdWord).extractLsb' 16 4 = 3 ∧ (0x38000 : CmdWord).extractLsb' 16 4 = 3 := by
  decide

theorem witness_EncCommand :
    (machineAt (some ⟨0, 0, 0⟩)).Holds rotorsK ⟨0, 0, 0⟩ ∧ (25 : Code).toNat = (25 : Letter).val ∧
    (⟨1, 0, 0⟩ : Triple) = advance ⟨0, 0, 0⟩ rotorsK.fast.notch rotorsK.middle.notch :=
  ⟨machineAt_holds _, rfl, by decide +kernel⟩
theorem witness_DecCommand :
    (machineAt (some ⟨16, 4, 0⟩)).Holds rotorsK ⟨16, 4, 0⟩ ∧ TablesValid (machineAt (some ⟨16, 4, 0⟩)) ∧
    (0 : Code).toNat = (0 : Letter).val ∧
    (⟨17, 5, 1⟩ : Triple) = advance ⟨16, 4, 0⟩ rotorsK.fast.notch rotorsK.middle.notch :=
  ⟨machineAt_holds _, machineAt_valid _, rfl, by decide +kernel⟩
theorem witness_XfmeCommand :
    (machineAt (some ⟨17, 5, 1⟩)).Holds rotorsK ⟨17, 5, 1⟩ ∧ (0 : Code).toNat = (0 : Letter).val :=
  ⟨machineAt_holds _, rfl⟩
theorem witness_XfmdCommand :
    (machineAt (some ⟨17, 5, 1⟩)).Holds rotorsK ⟨17, 5, 1⟩ ∧ TablesValid (machineAt (some ⟨17, 5, 1⟩)) ∧
    (25 : Code).toNat = (25 : Letter).val := ⟨machineAt_holds _, machineAt_valid _, rfl⟩

theorem witness_LetterCommandErrorsInOrder_incomplete :
    Instr.dec 0 ∈ [Instr.enc 0, .dec 0, .xfme 0, .xfmd 0] ∧ State.reset.complete = false := by decide
theorem witness_LetterCommandErrorsInOrder_window :
    Instr.enc 26 ∈ [Instr.enc 26, .dec 26, .xfme 26, .xfmd 26] ∧ (machineAt none).complete = true ∧
    (machineAt none).pos = none := by decide
theorem witness_LetterCommandErrorsInOrder_letter :
    Instr.xfmd 26 ∈ [Instr.enc 26, .dec 26, .xfme 26, .xfmd 26] ∧ (machineAt (some ⟨0, 0, 0⟩)).complete = true ∧
    (machineAt (some ⟨0, 0, 0⟩)).pos ≠ none ∧ 26 ≤ (26 : Code).toNat := by decide
theorem witness_LetterCommandErrorsInOrder_word :
    4 ≤ ((0x40020 : CmdWord).extractLsb' 16 4).toNat ∧ ((0x70020 : CmdWord).extractLsb' 16 4).toNat < 8 ∧
    (0x40020 : CmdWord).extractLsb' 5 11 ≠ 0 ∧ (0x78000 : CmdWord).extractLsb' 5 11 ≠ 0 := by decide

theorem witness_InvertOfUnvalidatedTableStops :
    Instr.xfmd 25 ∈ [Instr.dec 25, .xfmd 25] ∧
    (badMachine ⟨0, 0, 0⟩).Holds ⟨⟨k0, 16⟩, ⟨k1, 4⟩, ⟨allA, 21⟩⟩ ⟨0, 0, 0⟩ ∧ (25 : Code).toNat < 26 ∧
    ¬(IsPermutation k0 ∧ IsPermutation k1 ∧ IsPermutation allA) :=
  ⟨by decide, ⟨rfl, rfl, rfl, rfl⟩, by decide, fun h => allA_not_perm h.2.2⟩

/-! ## Witnesses: frames and rules of the whole machine -/

theorem witness_LdrotFrame : (nextOf? (exec (.ldrot 1 defK0) (machineAt (some ⟨0, 0, 0⟩)))).isSome = true ∧
    (0 : Slot).val ≠ (1 : BitVec 2).toNat := by decide +kernel

theorem witness_OnlyLdrotChangesRotors :
    (∀ r rot, Instr.step ≠ .ldrot r rot) ∧
    exec .step (machineAt none) = .next (raise .windowNotSet (machineAt none)) := by
  refine ⟨fun _ _ h => ?_, rfl⟩
  cases h
theorem witness_OnlyLdrotChangesRotors_success :
    (nextOf? (exec (.enc 7) (machineAt (some ⟨0, 0, 0⟩)))).isSome = true := by decide +kernel

theorem witness_NopAndTransformsChangeOnlyResponse :
    Instr.xfmd 7 ∈ [Instr.nop, .xfme 7, .xfmd 7] ∧
    (nextOf? (exec (.xfmd 7) (machineAt (some ⟨0, 0, 0⟩)))).isSome = true := by decide +kernel
theorem witness_NopAndTransformsChangeOnlyResponse_ldrot :
    ((nextOf? (exec (.ldrot 1 defK0) (machineAt (some ⟨0, 0, 0⟩)))).map (·.pos)) ≠
      some (machineAt (some ⟨0, 0, 0⟩)).pos := by decide +kernel

theorem witness_ErrorAnnulsCommand :
    ((nextOf? (step (withMove (present (.enc 26))))).bind (·.rsp)) = some ⟨.err .invalidLetter, 0⟩ := by decide +kernel

theorem witness_ErrorsAreNotSticky :
    ((nextOf? (exec (.enc 26) (machineAt (some ⟨0, 0, 0⟩)))).bind (·.rsp)) = some ⟨.err .invalidLetter, 0⟩ ∧
    (nextOf? (exec .nop (machineAt (some ⟨0, 0, 0⟩)))).isSome = true := by decide +kernel

/-- A word that is no command, as the failed command; its `NOP` counterpart runs. -/
theorem witness_ErrorsAreNotSticky_word :
    ((nextOf? (runCommand 0x80000 0 (machineAt (some ⟨0, 0, 0⟩)))).bind (·.rsp)) = some ⟨.err .illegalCommand, 0⟩ ∧
    (nextOf? (runCommand 0x00000 0 (machineAt (some ⟨0, 0, 0⟩)))).isSome = true := by decide +kernel

theorem witness_WindowValidRule :
    (nextOf? (step (withMove pressReset))).map (·.pv) = some false ∧
    (nextOf? (step (withMove (present (.ldrot 1 defK0))))).map (·.pv) = some false ∧
    (nextOf? (step { machineAt none with host := [present (.setw 25 0 25)] })).map (·.pv) = some true ∧
    (nextOf? (step (withMove (present .step)))).map (·.pv) = some true := by decide +kernel
theorem witness_WindowValidRule_raises :
    Instr.step ∈ [Instr.step, .enc 0, .dec 0, .xfme 0, .xfmd 0] ∧ (machineAt none).complete = true ∧
    (machineAt none).pv = false := by decide

theorem witness_SlotValidRule :
    (nextOf? (step (withMove pressReset))).map (·.rv 1) = some false ∧
    (nextOf? (step { State.reset with host := [present (.ldrot 2 defK0)] })).map (·.rv 2) = some true ∧
    (nextOf? (step { State.reset with host := [present (.ldrot 2 defK0)] })).map (·.rv 1) = some false ∧
    (nextOf? (step (withMove (present .step)))).map (·.rv 1) = some true := by decide +kernel

theorem witness_StepKeepsInvariant :
    (withMove (present (.dec 7))).Inv ∧ (nextOf? (step (withMove (present (.dec 7))))).isSome = true :=
  ⟨⟨machineAt_valid (some ⟨0, 0, 0⟩), fun _ => by decide⟩, by decide +kernel⟩

theorem witness_EveryMoveHasAResult :
    TablesValid (withMove (present (.dec 7))) ∧ breaksNext (withMove (present (.dec 7))) = false :=
  ⟨machineAt_valid (some ⟨0, 0, 0⟩), by decide⟩

/-- A run of one step from reset, and a next move that keeps the handshake. -/
theorem witness_RunsFromResetNeverStop :
    Reachable { State.reset with rsp := some ⟨.ok, 0⟩, host := [present .step] } ∧
    breaksNext { State.reset with rsp := some ⟨.ok, 0⟩, host := [present .step] } = false :=
  ⟨.step (.reset [present .nop, present .step]) rfl, by decide⟩

/-! ## Witnesses: stepping -/

theorem witness_DirectionNeverAffectsStepping :
    (machineAt (some ⟨16, 4, 0⟩)).complete = true ∧ (machineAt (some ⟨16, 4, 0⟩)).pv = true ∧
    TablesValid (machineAt (some ⟨16, 4, 0⟩)) ∧ (0 : Code).toNat < 26 ∧ (25 : Code).toNat < 26 :=
  ⟨by decide, by decide, machineAt_valid _, by decide, by decide⟩

theorem witness_SlowNotchNeverConsulted :
    SameButSlowNotch (machineAt (some ⟨16, 4, 0⟩))
      { machineAt (some ⟨16, 4, 0⟩) with slots := #v[some ⟨k0, 16⟩, some ⟨k1, 4⟩, some ⟨k2, 0⟩] } ∧
    (machineAt (some ⟨16, 4, 0⟩)).slots[2] ≠ some ⟨k2, 0⟩ := ⟨⟨rfl, rfl, rfl, rfl, rfl, rfl⟩, by decide +kernel⟩

theorem witness_TriplesWithoutPredecessor : (⟨0, 4, 0⟩ : Triple).middle = 4 ∧ (⟨0, 4, 0⟩ : Triple).fast ≠ inc26 16 := by
  decide
theorem witness_SteppingSettlesOnCycle : OnCycle 16 4 ⟨0, 0, 0⟩ ∧ OnCycle 16 4 ⟨17, 4, 25⟩ := by decide
theorem witness_FastRotorHasPeriod26 : 0 < 25 ∧ 25 < 26 := by decide

/-! ## Witnesses: permutations, the transform, messages -/

theorem witness_InvertLaws : IsPermutation k0 ∧ IsPermutation identity := ⟨k0_perm, identity_perm⟩

/-- The shift wraps: contact 25 at position 25. -/
theorem witness_RotorPassRule : (24 : Letter).val = ((25 : Letter).val + (25 : Letter).val) % 26 := by decide

theorem witness_TransformRoundTrip :
    IsPermutation rotorsK.fast.wiring ∧ IsPermutation rotorsK.middle.wiring ∧ IsPermutation rotorsK.slow.wiring :=
  ⟨k0_perm, k1_perm, k2_perm⟩
theorem witness_TransformEncIsBijective :
    (IsPermutation k0 ∧ IsPermutation k1 ∧ IsPermutation k2) ∧ ∀ i : Letter, identity[i] = i :=
  ⟨⟨k0_perm, k1_perm, k2_perm⟩, by decide +kernel⟩

theorem witness_XfmdUndoesXfme :
    TablesValid (machineAt (some ⟨17, 5, 1⟩)) ∧
    ((nextOf? (exec (.xfme (letterCode 0)) (machineAt (some ⟨17, 5, 1⟩)))).bind (·.rsp)) = some ⟨.ok, 25⟩ ∧
    ((nextOf? (exec (.xfmd (letterCode 0)) (machineAt (some ⟨17, 5, 1⟩)))).bind (·.rsp)) = some ⟨.ok, 13⟩ :=
  ⟨machineAt_valid _, by decide +kernel, by decide +kernel⟩

theorem witness_ProcessAdvancesOncePerLetter :
    rotorsOf? (machineAt none) = some rotorsK ∧ TablesValid (machineAt none) := ⟨rfl, machineAt_valid _⟩
theorem witness_ProcessIsRestartable : (machineAt none).slots = (machineAt (some ⟨3, 4, 5⟩)).slots := rfl
theorem witness_MessageRoundTrip : (machineAt none).complete = true ∧ TablesValid (machineAt none) :=
  ⟨by decide, machineAt_valid _⟩

theorem witness_BringUpReadiesMachine :
    (2 : Slot) ≠ 0 ∧ (0 : Slot) ≠ 1 ∧ (2 : Slot) ≠ 1 ∧
    (∀ d ∈ [defK0, defK0, defK0], validateHw d.entries = true ∧ d.notch.toNat < 26) ∧
    Instr.step ∈ [Instr.enc (letterCode 0), .dec (letterCode 0), .step, .xfme (letterCode 0), .xfmd (letterCode 0)] := by
  refine ⟨by decide, by decide, by decide, ?_, by decide⟩
  have h : validateHw defK0.entries = true ∧ defK0.notch.toNat < 26 := by decide +kernel
  intro d hd
  rw [List.eq_of_mem_replicate (n := 3) hd]
  exact h

/-! ## Witnesses: the sub-blocks and the host's side -/

theorem witness_StepperBlockFollowsCommands :
    StepperMatches ⟨packTriple ⟨16, 4, 0⟩, true⟩ (machineAt (some ⟨16, 4, 0⟩)) ∧
    (∀ t ∈ (machineAt (some ⟨16, 4, 0⟩)).slots[0], t.notch = 16) ∧
    (∀ t ∈ (machineAt (some ⟨16, 4, 0⟩)).slots[1], t.notch = 4) ∧
    (nextOf? (exec .step (machineAt (some ⟨16, 4, 0⟩)))).isSome = true :=
  ⟨⟨rfl, fun p hp => by rw [← Option.some.inj hp]⟩, fun t ht => by rw [← Option.some.inj ht],
    fun t ht => by rw [← Option.some.inj ht], by decide +kernel⟩

theorem witness_PermutationXfmIsTransform : (inverseTables? rotorsK).isSome = true := by decide +kernel

/-- The alphabet as a wiring line. -/
def lineAtoZ : List Char := (List.finRange 26).map alphabet

theorem witness_LoaderRules_hands_over : IsPermutation identity ∧ lineAtoZ = identity.toList.map alphabet :=
  ⟨identity_perm, by decide +kernel⟩
theorem witness_LoaderRules_missing_letter :
    alphabet 1 ∉ List.replicate 26 'A' ∧ (List.replicate 26 'A').length = 26 := by decide
theorem witness_LoaderRules_length : (lineAtoZ.drop 1).length ≠ 26 := by decide
theorem witness_LoaderRules_absent : (loadDefinition lineAtoZ none).toOption.isSome = true := by decide +kernel
theorem witness_LoaderRules_blank :
    [' ', ' '].all isBlank = true ∧ (loadDefinition lineAtoZ (some [' ', ' '])).toOption.isSome = true := by
  decide +kernel
theorem witness_LoaderRules_malformed :
    ['Q', 'E'].all isBlank = false ∧ ∀ x : Letter, ['Q', 'E'] ≠ [alphabet x] := by decide
theorem witness_LoaderRules_letter : (loadDefinition lineAtoZ (some [alphabet 16])).toOption.isSome = true := by
  decide +kernel
theorem witness_LoaderHandsOverValidRotors :
    (loadDefinition lineAtoZ none).toOption.isSome = true ∧ (2 : BitVec 2) ≠ 3 := by decide +kernel

/-- R222: lower case is folded; a space, a digit and an accented consonant are dropped (the number of C with cedilla). -/
theorem test_clean_plain_text :
    cleanPlainText ['h', 'I', ' ', '7', Char.ofNat 0xC7, '-', 'z'] = [7, 8, 25] := by decide +kernel
theorem test_accented_vowels : accentedVowel? (Char.ofNat 0xE9) = some 'E' ∧
    accentedVowel? (Char.ofNat 0xC7) = none ∧ accentedVowel? (Char.ofNat 0xF1) = none := by decide +kernel
theorem test_clean_cipher_text : cleanCipherText ['A', ' ', '\n', 'B'] = ['A', 'B'] := by decide +kernel

theorem witness_CipherTextInFives : groupFives 0 [7, 4, 11, 11, 14, 22] = ['H', 'E', 'L', 'L', 'O', ' ', 'W'] := by
  decide +kernel

/-! ## The assembler (R80, R81; 95_test_vectors.md section 3) -/

/-- The words of a line. -/
def wordsOf (line : String) : Option (List CmdWord) := (parseLine line.toList).map fun ls => ls.map fun l => (assemble l).1

theorem test_assemble_setw : wordsOf "SETW \"QEV\"" = some [0x25490] ∧ wordsOf "SETW O, 3, 0" = some [0x2006E] := by
  decide +kernel
theorem test_assemble_letters : wordsOf "ENC H" = some [0x40007] ∧ wordsOf "ENC 26" = some [0x4001A] ∧
    wordsOf "XFMD 32" = none := by decide +kernel
theorem test_assemble_ldrot :
    (parseLine "LDROT 0, \"EKMFLGDQVZNTOWYHXUSPAIBRCJ\", Q".toList).map (fun ls => ls.map assemble) =
      some [(0x10000, rotK0)] := by decide +kernel
theorem test_assemble_ldrot_codes :
    (parseLine "LDROT 0, [26, 1, 2, 3, 4, 5, 6, 7, 8, 9, 10, 11, 12, 13, 14, 15, 16, 17, 18, 19, 20, 21, 22, 23, 24, 25], 25".toList).map
      (fun ls => ls.map assemble) = some [(0x10000, 0x6738BDAB49CA307B9AC5A928398A41883A)] := by decide +kernel
theorem test_assemble_word : wordsOf ".word 0xFFFFF" = some [0xFFFFF] ∧ wordsOf ".word 0x100000" = none := by
  decide +kernel
theorem test_assemble_pseudo :
    wordsOf "PROCESS DEC, \"AAA\", \"H Z\"" = some [0x20000, 0x50007, 0x50019] ∧
    wordsOf "STEPN 2" = some [0x30000, 0x30000] := by decide +kernel
theorem test_response_text : responseText true ⟨.ok, 4⟩ = ['O', 'K', ' ', 'E'] := by decide +kernel

end Sys2Proof.Tests
end

section
/-! SUPPORT. Facts of the state layer that the proofs share: the operands and tables `LDROT` takes, the valid bits and
answers after an update, the fields of a packed triple, how a move is served. -/

namespace Sys2Proof.Machine

theorem slotOf_eq_some {r : BitVec 2} {k : Slot} : slotOf? r = some k ↔ r.toNat = k.val := by
  unfold slotOf?
  split
  · simp [Fin.ext_iff]
  · simp only [reduceCtorEq, false_iff]; omega

theorem lettersOf_entry {t : Vector Code 26} {w : Table} (h : lettersOf? t = some w) (i : Letter) :
    (w[i] : Letter).val = t[i].toNat := by
  unfold lettersOf? at h
  split at h
  · rw [← Option.some.inj h]; simp
  · cases h

/-- `validate_hw` counts; what it checks is that each letter stands at exactly one contact (R104). -/
theorem validateHw_iff (t : Vector Code 26) :
    validateHw t = true ↔ ∀ j : Letter, ∃! i : Fin 26, t[i] = letterCode j := by
  have count (j : Letter) : (List.finRange 26).countP (fun i => t[i] == letterCode j) = 1 ↔
      ∃! i : Fin 26, t[i] = letterCode j := by
    rw [Fintype.existsUnique_iff_card_one, ← List.toFinset_finRange, (List.nodup_finRange 26).card_eq_countP]
    simp only [beq_eq_decide]
  simp only [validateHw, List.all_eq_true, List.mem_finRange, true_imp_iff, beq_iff_eq, count]

theorem wiringOf_eq_some {t : Vector Code 26} {w : Table} :
    wiringOf? t = some w ↔ validateHw t = true ∧ lettersOf? t = some w := by
  simp [wiringOf?]

theorem wiringOf_entry {t : Vector Code 26} {w : Table} (h : wiringOf? t = some w) (i : Letter) :
    (w[i] : Letter).val = t[i].toNat :=
  lettersOf_entry (wiringOf_eq_some.1 h).2 i

/-- The table that `LDROT` loads is a bijection (R30, R104). -/
theorem wiringOf_isPermutation {t : Vector Code 26} {w : Table} (h : wiringOf? t = some w) : IsPermutation w := by
  have entry (i j : Letter) : t[i] = letterCode j ↔ w[i] = j := by
    rw [eq_letterCode_iff, ← wiringOf_entry h i, Fin.ext_iff]
  intro j
  obtain ⟨i, hi, huniq⟩ := (validateHw_iff t).1 (wiringOf_eq_some.1 h).1 j
  exact ⟨i, (entry i j).1 hi, fun k hk => huniq k ((entry k j).2 hk)⟩

theorem tblRead_of_slots {s t : State} (h : s.slots = t.slots) (r : Slot) (i : Letter) :
    tblRead? s r i = tblRead? t r i := by
  simp only [tblRead?, h]

theorem complete_of_slots {s t : State} (h : s.slots = t.slots) : s.complete = t.complete := by
  simp only [State.complete, rv_of_slots h]

theorem pos_eq_none_iff {s : State} : s.pos = none ↔ s.pv = false := by
  simp [State.pv]

@[simp] theorem answeredOk_respond (l : Letter) (s : State) : answeredOk (respond .ok l s) = true := rfl
@[simp] theorem answeredOk_raise (e : Err) (s : State) : answeredOk (raise e s) = false := rfl

theorem reset_slot : ∀ r : Slot, State.reset.slots[r] = none := by decide

@[simp] theorem reset_rv (r : Slot) : State.reset.rv r = false := congrArg Option.isSome (reset_slot r)

@[simp] theorem resetCore_rv (s : State) (r : Slot) : (resetCore s).rv r = false := reset_rv r

theorem movesRotors_iff {i : Instr} :
    movesRotors i = true ↔ i = .step ∨ (∃ c, i = .enc c) ∨ ∃ c, i = .dec c := by
  cases i <;> simp [movesRotors]

/-- Three flags side by side, bit 0 the last of them: the layout of `rv_o` (R38). -/
theorem flagBits_getLsbD (a b c : Bool) (r : Fin 3) :
    (BitVec.ofBool c ++ BitVec.ofBool b ++ BitVec.ofBool a).getLsbD r.val = #v[a, b, c][r] := by
  revert a b c r; decide

theorem outputs_rvO_getLsbD (s : State) (fr : RspWord) (fw : BitVec 15) (r : Slot) :
    (outputs s fr fw).rvO.getLsbD r.val = s.rv r := by
  refine (flagBits_getLsbD (s.rv 0) (s.rv 1) (s.rv 2) r).trans ?_
  match r with
  | 0 | 1 | 2 => rfl

theorem outputs_winO_of_window {s : State} {p : Triple} (h : s.pos = some p) (fr : RspWord) (fw : BitVec 15) :
    (outputs s fr fw).winO = packTriple p := by
  simp only [outputs, h]

/-- `pos[0]` is in the low five bits of the packed triple, `pos[1]` in the next and `pos[2]` in the top ones (R38). -/
@[simp] theorem packTriple_fast (p : Triple) : (packTriple p).extractLsb' 0 5 = letterCode p.fast :=
  BitVec.extractLsb'_append_eq_right

@[simp] theorem packTriple_middle (p : Triple) : (packTriple p).extractLsb' 5 5 = letterCode p.middle :=
  (BitVec.extractLsb'_append_eq_of_le (by decide)).trans BitVec.extractLsb'_append_eq_right

@[simp] theorem packTriple_slow (p : Triple) : (packTriple p).extractLsb' 10 5 = letterCode p.slow :=
  (BitVec.extractLsb'_append_eq_of_le (by decide)).trans BitVec.extractLsb'_append_eq_left

/-- While `pv` is 0 a letter command on a complete machine raises `WindowNotSet`, whatever its letter (R187, R193). -/
theorem whenReady_of_no_window {c : Code} {s : State} {m : Rotors} (hm : rotorsOf? s = some m) (hp : s.pos = none)
    (k : Rotors → Triple → Letter → Outcome) : whenReady c s k = .next (raise .windowNotSet s) :=
  (whenComplete_of hm _).trans (whenWindow_of_none hp _)

theorem step_of_no_move {s : State} (h : s.host = []) : step s = .next (holdState s) := by
  simp only [step, serve, h]

theorem step_of_move {s : State} {m : HostMove} {rest : List HostMove} (h : s.host = m :: rest) :
    step s = runMove m { s with host := rest } := by
  simp only [step, serve, h]

end Sys2Proof.Machine
end

section
/-! SUPPORT. What a command that answers leaves unchanged (R23, R31), and what keeps the invariant of the machine. -/

namespace Sys2Proof.Machine

theorem Effect.host_eq {i : Instr} {s s' : State} (h : Effect i s s') : s'.host = s.host := by
  cases h <;> rfl

theorem Effect.slots_eq {i : Instr} {s s' : State} (h : Effect i s s') (hi : ∀ r rot, i ≠ .ldrot r rot) :
    s'.slots = s.slots := by
  cases h with
  | load r rot _ _ _ hr => exact absurd hr (hi r rot)
  | error | answer | window | move => rfl

/-- The invariant speaks of the slots and of the presence of a window: it stays where the slots stay and a new window
is set on a complete machine only. -/
theorem State.Inv.of_slots_eq {s t : State} (h : s.Inv) (hslots : t.slots = s.slots)
    (hpos : t.pos = s.pos ∨ s.complete = true) : t.Inv := by
  obtain ⟨htables, hwindow⟩ := h
  refine ⟨fun r rot hrot => htables r rot (hslots ▸ hrot), fun hpv => ?_⟩
  rw [complete_of_slots hslots]
  obtain hpos | hcomplete := hpos
  · exact hwindow (pv_of_pos hpos ▸ hpv)
  · exact hcomplete

theorem inv_of_no_window {s : State} (htables : TablesValid s) (hpos : s.pos = none) : s.Inv :=
  ⟨htables, fun hpv => absurd hpv (by simp [pos_eq_none_iff.1 hpos])⟩

theorem Effect.inv {i : Instr} {s s' : State} (h : Effect i s s') (hs : s.Inv) : s'.Inv := by
  cases h with
  | error e => exact hs.of_slots_eq rfl (.inl rfl)
  | answer l => exact hs.of_slots_eq rfl (.inl rfl)
  | load r rot k w n hi hk hw hn =>
    exact inv_of_no_window (loadSlot_tablesValid hs.1 (wiringOf_isPermutation hw)) rfl
  | window f m w p hi hw hc => exact hs.of_slots_eq rfl (.inr hc)
  | move m p l hi hm hp => exact hs.of_slots_eq rfl (.inr (complete_of_rotors hm))

theorem inv_of_empty {s : State} (hslots : s.slots = State.reset.slots) (hpos : s.pos = none) : s.Inv := by
  refine inv_of_no_window (fun r rot hrot => ?_) hpos
  rw [hslots, reset_slot r] at hrot
  cases hrot

theorem StepEffect.inv {s s' : State} (h : StepEffect s s') (hs : s.Inv) : s'.Inv := by
  cases h with
  | reset => exact inv_of_empty rfl rfl
  | hold => exact hs.of_slots_eq rfl (.inl rfl)
  | illegal => exact hs.of_slots_eq rfl (.inl rfl)
  | command i _ _ _ he => exact he.inv (hs.of_slots_eq rfl (.inl rfl))

end Sys2Proof.Machine
end

section
/-! The obligations about the state: the invariant, what each command writes, what the outputs show. -/

namespace Sys2Proof.Machine

/-- Settles O36: each way a step can answer keeps both parts of the invariant. -/
theorem stepKeepsInvariant : Obligations.StepKeepsInvariant := fun _ _ hs h => (step_next h).inv hs

/-- Settles O29: only `LDROT` has the effect that writes a slot. -/
theorem onlyLdrotChangesRotors : Obligations.OnlyLdrotChangesRotors := by
  intro i s s' hi h
  have hslots := (exec_next h).slots_eq hi
  exact ⟨(exec_next h).host_eq, hslots, rv_of_slots hslots, tblRead_of_slots hslots⟩

/-- Settles O30: the three commands can only answer or raise, and the one effect of `LDROT` that writes the triple is
the load. -/
theorem nopAndTransformsChangeOnlyResponse : Obligations.NopAndTransformsChangeOnlyResponse := by
  refine ⟨fun c i s s' hi h => ?_, fun r rot s s' h hpos => ?_⟩
  · cases exec_next h with
    | error | answer => rfl
    | load _ _ _ _ _ hr => simp [hr] at hi
    | window _ _ _ _ hw => simp [hw] at hi
    | move _ _ _ hmoves =>
      simp only [List.mem_cons, List.not_mem_nil, or_false] at hi
      obtain rfl | rfl | rfl := hi <;> cases hmoves
  · cases exec_next h with
    | error | answer => exact absurd rfl hpos
    | load => exact ⟨rfl, rfl⟩
    | window _ _ _ _ hw => cases hw
    | move _ _ _ hmoves => cases hmoves

/-- Settles O33: `pv` after each way a step can answer, and the first check that fails while it is 0. -/
theorem windowValidRule : Obligations.WindowValidRule := by
  refine ⟨fun s s' h => ?_, fun c s i hi hcomplete hpv => ?_⟩
  · cases step_next h with
    | reset hr => rw [hr]; rfl
    | hold hr ha => rw [hr, ha]; rfl
    | illegal hr ha => rw [hr, ha]; rfl
    | command i hr ha _ he =>
      rw [hr, ha]
      cases he with
      | error => rfl
      | answer _ hi => obtain rfl | ⟨_, rfl⟩ | ⟨_, rfl⟩ := hi <;> rfl
      | load _ _ _ _ _ hi => rw [hi]; rfl
      | window _ _ _ _ hi => rw [hi]; rfl
      | move _ _ _ hi _ hp =>
        have hpv : s.pv = true := congrArg Option.isSome hp
        rw [hpv]
        obtain rfl | ⟨_, rfl⟩ | ⟨_, rfl⟩ := movesRotors_iff.1 hi <;> rfl
  · obtain ⟨m, hm⟩ := Option.isSome_iff_exists.1 ((complete_eq_isSome s).symm.trans hcomplete)
    have hpos := pos_eq_none_iff.2 hpv
    simp only [List.mem_cons, List.not_mem_nil, or_false] at hi
    obtain rfl | rfl | rfl | rfl | rfl := hi
    · exact (whenComplete_of hm _).trans (whenWindow_of_none hpos _)
    all_goals exact whenReady_of_no_window hm hpos _

/-- Settles O34: `LDROT` that answers `OK` is the one effect on a slot beside reset, and it loads what the operand
spells. -/
theorem slotValidRule : Obligations.SlotValidRule := by
  intro s s' q h
  cases step_next h with
  | reset hr => rw [hr]; exact resetCore_rv _ q
  | hold hr ha => rw [hr, ha]; rfl
  | illegal hr ha => rw [hr, ha]; rfl
  | command i hr ha _ he =>
    rw [hr, ha]
    cases he with
    | error => rfl
    | answer _ hi => obtain rfl | ⟨_, rfl⟩ | ⟨_, rfl⟩ := hi <;> rfl
    | load r rot k w n hi hk hw hn =>
      rw [hi, answeredOk_respond]
      have hslot := loadSlot_slot { s with host := s.host.tail } k q ⟨w, n⟩
      have hkq : k = q ↔ r.toNat = q.val := by rw [slotOf_eq_some.1 hk, Fin.ext_iff]
      show if r.toNat = q.val then _ else _
      split
      next hq =>
        rw [if_pos (hkq.2 hq)] at hslot
        exact ⟨⟨w, n⟩, hslot, wiringOf_isPermutation hw, (letterOfCode_eq_some.1 hn).symm, wiringOf_entry hw⟩
      next hq =>
        rw [if_neg (mt hkq.1 hq)] at hslot
        exact hslot
    | window _ _ _ _ hi => rw [hi]; rfl
    | move _ _ _ hi => obtain rfl | ⟨_, rfl⟩ | ⟨_, rfl⟩ := movesRotors_iff.1 hi <;> rfl

/-- Settles O10: each bit and field of the outputs is that of the state it is built from. -/
theorem statusOutputsShowState : Obligations.StatusOutputsShowState := by
  intro s fr fw
  refine ⟨outputs_rvO_getLsbD s fr fw, rfl, fun p hp => ?_⟩
  simp [outputs_winO_of_window hp]

/-- Settles O11: the reset state is a literal, and its outputs do not read the free values. -/
theorem resetStateValues : Obligations.ResetStateValues :=
  ⟨reset_rv, rfl, rfl, fun _ _ => ⟨rfl, rfl, rfl⟩⟩

/-- Settles O15: with no command served the core only ends the response strobe. -/
theorem noCommandHoldsState : Obligations.NoCommandHoldsState := by
  refine ⟨fun s h => step_of_no_move h, fun s e rest h hrst hvalid => ?_⟩
  rw [step_of_move h]
  simp only [runMove, runEdge, hrst, hvalid]
  rfl

/-- Settles O35: with no rotor and no window there is nothing to violate. -/
theorem resetMeetsInvariant : Obligations.ResetMeetsInvariant := fun _ => inv_of_empty rfl rfl

end Sys2Proof.Machine
end


section
/-! SUPPORT. Words side by side: a slice as its two parts, a field under a mask, the number two words make. -/

namespace Sys2Proof

/-- A slice of a word is two words side by side exactly when its upper and its lower part are these. -/
theorem slice_eq_append_iff {n k l : Nat} {x : BitVec n} {start : Nat} {a : BitVec k} {b : BitVec l} :
    x.extractLsb' start (k + l) = a ++ b ↔ x.extractLsb' (start + l) k = a ∧ x.extractLsb' start l = b := by
  rw [← BitVec.extractLsb'_append_extractLsb'_eq_extractLsb' rfl]
  refine ⟨fun h => ⟨?_, ?_⟩, fun ⟨ha, hb⟩ => by rw [ha, hb]⟩
  · simpa only [BitVec.extractLsb'_append_eq_left] using congrArg (BitVec.extractLsb' l k) h
  · simpa only [BitVec.extractLsb'_append_eq_right] using congrArg (BitVec.extractLsb' 0 l) h

theorem eq_append_iff {k l : Nat} {x : BitVec (k + l)} {a : BitVec k} {b : BitVec l} :
    x = a ++ b ↔ x.extractLsb' l k = a ∧ x.extractLsb' 0 l = b := by
  have := slice_eq_append_iff (x := x) (start := 0) (a := a) (b := b)
  rwa [BitVec.extractLsb'_eq_self, Nat.zero_add] at this

theorem toNat_append_eq_add {k l : Nat} (a : BitVec k) (b : BitVec l) :
    (a ++ b).toNat = a.toNat * 2 ^ l + b.toNat := by
  rw [BitVec.toNat_append, ← Nat.shiftLeft_add_eq_or_of_lt b.isLt, Nat.shiftLeft_eq]

/-- Masking with a run of ones gives zero exactly when the field under the run is zero. -/
theorem and_run_eq_zero_iff {n : Nat} (x : BitVec n) (start len : Nat) :
    x &&& (BitVec.allOnes len).setWidth n <<< start = 0 ↔ x.extractLsb' start len = 0 := by
  constructor
  · intro h
    ext j hj
    have hbit := congrArg (·.getLsbD (start + j)) h
    by_cases hlt : start + j < n
    · simpa [hj, hlt] using hbit
    · simp [BitVec.getLsbD_of_ge x _ (by omega : n ≤ start + j)]
  · intro h
    ext j hj
    by_cases hrun : start ≤ j ∧ j - start < len
    · have hbit := congrArg (·.getLsbD (j - start)) h
      have hx : x[j] = false := by simpa [hrun, hj] using hbit
      simp [hx]
    · simp; omega

theorem slice_one_eq_zero_iff {n : Nat} {x : BitVec n} {k : Nat} :
    x.extractLsb' k 1 = 0 ↔ x.getLsbD k = false := by
  have zero_iff (y : BitVec 1) : y = 0 ↔ (y == 1) = false := by revert y; decide
  rw [BitVec.getLsbD_eq_extractLsb']
  exact zero_iff _

/-- Bit `k` of words merged by OR is set when it is set in one of them. -/
theorem getLsbD_foldl_or {α : Type} {n : Nat} (f : α → BitVec n) (l : List α) (acc : BitVec n) (k : Nat) :
    (l.foldl (fun acc i => acc ||| f i) acc).getLsbD k = (acc.getLsbD k || l.any fun i => (f i).getLsbD k) := by
  induction l generalizing acc with
  | nil => simp
  | cons x xs ih => simp [ih, Bool.or_assoc]

end Sys2Proof
end

section
/-! SUPPORT. The packed table and the rotor word are determined by their fields (R55, R76). -/

namespace Sys2Proof

theorem packTable_getLsbD (t : Vector Code 26) (i : Fin 26) {j : Nat} (hj : j < 5) :
    (packTable t).getLsbD (5 * i.val + j) = t[i].getLsbD j := by
  have bit (q : Fin 26) : ((t[q].setWidth 130).shiftLeft (5 * q.val)).getLsbD (5 * i.val + j) =
      (decide (q = i) && t[i].getLsbD j) := by
    have hin : 5 * i.val + j < 130 := by omega
    rw [BitVec.shiftLeft_eq, BitVec.getLsbD_shiftLeft, BitVec.getLsbD_setWidth]
    by_cases hq : q = i
    · have hj' : j < 130 := by omega
      simp [hq, hin, hj']
    · have hne : q.val ≠ i.val := fun e => hq (Fin.ext e)
      rw [decide_eq_false hq, Bool.false_and, Bool.and_eq_false_iff]
      by_cases hlt : 5 * i.val + j < 5 * q.val
      · left; simp [hlt]
      · right; rw [BitVec.getLsbD_of_ge _ _ (by omega), Bool.and_false]
  rw [packTable, getLsbD_foldl_or]
  simp only [bit]
  simp [List.any_eq]

@[simp] theorem packTable_entry (t : Vector Code 26) (i : Fin 26) :
    (packTable t).extractLsb' (5 * i.val) 5 = t[i] := by
  ext j hj
  rw [BitVec.getElem_extractLsb', packTable_getLsbD t i hj, BitVec.getLsbD_eq_getElem]

theorem eq_of_entries_eq {v w : BitVec 130}
    (h : ∀ i : Fin 26, v.extractLsb' (5 * i.val) 5 = w.extractLsb' (5 * i.val) 5) : v = w := by
  apply BitVec.eq_of_getLsbD_eq
  intro k hk
  have hfield := congrArg (·.getLsbD (k % 5)) (h ⟨k / 5, by omega⟩)
  have hk' : 5 * (k / 5) + k % 5 = k := Nat.div_add_mod k 5
  simpa only [BitVec.getLsbD_extractLsb', hk', Nat.mod_lt k (by decide : 5 > 0), decide_true, Bool.true_and]
    using hfield

theorem packTable_eq_iff {t : Vector Code 26} {w : BitVec 130} :
    packTable t = w ↔ ∀ i : Fin 26, w.extractLsb' (5 * i.val) 5 = t[i] := by
  constructor
  · rintro rfl
    exact packTable_entry t
  · intro h
    exact eq_of_entries_eq fun i => (packTable_entry t i).trans (h i).symm

theorem packRotor_eq_iff {d : RotorDef} {w : RotWord} :
    packRotor d = w ↔
      (∀ i : Fin 26, w.extractLsb' (5 * i.val) 5 = d.entries[i]) ∧ w.extractLsb' 130 5 = d.notch := by
  have low (i : Fin 26) : (w.extractLsb' 0 130).extractLsb' (5 * i.val) 5 = w.extractLsb' (5 * i.val) 5 := by
    rw [BitVec.extractLsb'_extractLsb'_of_le (by omega)]
  rw [packRotor, eq_comm]
  refine (eq_append_iff (k := 5) (l := 130)).trans ?_
  rw [eq_comm (b := packTable _), packTable_eq_iff, and_comm]
  simp only [low]

@[simp] theorem unpackRotor_entry (w : RotWord) (i : Fin 26) :
    (unpackRotor w).entries[i] = w.extractLsb' (5 * i.val) 5 := by
  simp [unpackRotor]

@[simp] theorem unpackRotor_notch (w : RotWord) : (unpackRotor w).notch = w.extractLsb' 130 5 := by
  rw [unpackRotor]

/-- Unpacking a rotor word undoes packing it, and the other way round: no bit of the word is lost. -/
theorem unpackRotor_eq_iff {d : RotorDef} {w : RotWord} : unpackRotor w = d ↔ packRotor d = w := by
  obtain ⟨t, n⟩ := d
  rw [packRotor_eq_iff, unpackRotor, RotorDef.mk.injEq]
  simp only [Vector.ext_iff, Vector.getElem_ofFn, Fin.forall_iff, Fin.getElem_fin]

end Sys2Proof
end

section
/-! SUPPORT. The decoder and the encoder: the opcode map, the reserved bits of each format, and when a word decodes to a
command (R71 to R78). -/

namespace Sys2Proof

@[simp] theorem opOf_opcode (o : Op) : opOf? (opcode o) = some o := by cases o <;> rfl

theorem opOf_eq_some {b : BitVec 4} {o : Op} : opOf? b = some o ↔ b = opcode o := by
  constructor
  · intro h
    have := List.find?_some (p := fun o => opcode o == b) h
    exact (beq_iff_eq.1 this).symm
  · rintro rfl
    exact opOf_opcode o

/-- The reserved opcodes are those with the upper bit set (R75). -/
theorem opOf_eq_none : ∀ {b : BitVec 4}, opOf? b = none ↔ b.getLsbD 3 = true := by decide

/-- A word has a reserved opcode or that of a command. -/
theorem reserved_or_opcode (cmd : CmdWord) :
    cmd.getLsbD 19 = true ∨ ∃ o, cmd.extractLsb' 16 4 = opcode o := by
  have top : cmd.getLsbD 19 = (cmd.extractLsb' 16 4).getLsbD 3 := by simp
  cases ho : opOf? (cmd.extractLsb' 16 4) with
  | none => exact .inl (top.trans (opOf_eq_none.1 ho))
  | some o => exact .inr ⟨o, opOf_eq_some.1 ho⟩

theorem not_reserved_of_opcode {cmd : CmdWord} {o : Op} (h : cmd.extractLsb' 16 4 = opcode o) :
    cmd.getLsbD 19 = false := by
  have := Laws.opcode_top o
  rw [← h] at this
  simpa using this

theorem reserved_n {cmd : CmdWord} : cmd &&& reservedMask .n = 0 ↔ cmd.extractLsb' 0 16 = 0 :=
  and_run_eq_zero_iff cmd 0 16

theorem reserved_r {cmd : CmdWord} : cmd &&& reservedMask .r = 0 ↔ cmd.extractLsb' 2 14 = 0 :=
  and_run_eq_zero_iff cmd 2 14

theorem reserved_w {cmd : CmdWord} : cmd &&& reservedMask .w = 0 ↔ cmd.extractLsb' 15 1 = 0 :=
  and_run_eq_zero_iff cmd 15 1

theorem reserved_l {cmd : CmdWord} : cmd &&& reservedMask .l = 0 ↔ cmd.extractLsb' 5 11 = 0 :=
  and_run_eq_zero_iff cmd 5 11

theorem opOf_fieldsOf (o : Op) (cmd : CmdWord) (rotI : RotWord) : opOf (fieldsOf o cmd rotI) = o := by
  cases o <;> rfl

theorem fieldsOf_of_ne_ldrot {o : Op} (h : o ≠ .ldrot) (cmd : CmdWord) (rotI rotI' : RotWord) :
    fieldsOf o cmd rotI = fieldsOf o cmd rotI' := by
  cases o with
  | ldrot => exact absurd rfl h
  | nop | setw | step | enc | dec | xfme | xfmd => rfl

theorem decode_of_reserved {cmd : CmdWord} (h : cmd.getLsbD 19 = true) (rotI : RotWord) :
    decode cmd rotI = .error .reservedOpcode := by
  have : opOf? (cmd.extractLsb' 16 4) = none := opOf_eq_none.2 (by simpa using h)
  simp only [decode, this]

theorem decode_of_opcode {cmd : CmdWord} {o : Op} (h : cmd.extractLsb' 16 4 = opcode o) (rotI : RotWord) :
    decode cmd rotI =
      if cmd &&& reservedMask (formatOf o) ≠ 0 then .error .reservedBits
      else if (fieldsOf o cmd rotI).wellFormed then .ok (fieldsOf o cmd rotI)
      else .error .noSuchSlot := by
  simp only [decode, h, opOf_opcode]

theorem decode_of_ne_ldrot {cmd : CmdWord} (h : cmd.extractLsb' 16 4 ≠ 1) (rotI rotI' : RotWord) :
    decode cmd rotI = decode cmd rotI' := by
  obtain hres | ⟨o, ho⟩ := reserved_or_opcode cmd
  · rw [decode_of_reserved hres, decode_of_reserved hres]
  · have hne : o ≠ .ldrot := by
      rintro rfl
      exact h ho
    rw [decode_of_opcode ho, decode_of_opcode ho, fieldsOf_of_ne_ldrot hne cmd rotI rotI']

theorem decode_eq_ok {cmd : CmdWord} {rotI : RotWord} {i : Instr} :
    decode cmd rotI = .ok i ↔ cmd.extractLsb' 16 4 = opcode (opOf i) ∧
      cmd &&& reservedMask (formatOf (opOf i)) = 0 ∧ i.wellFormed = true ∧ fieldsOf (opOf i) cmd rotI = i := by
  constructor
  · intro h
    obtain hres | ⟨o, ho⟩ := reserved_or_opcode cmd
    · rw [decode_of_reserved hres] at h
      cases h
    · rw [decode_of_opcode ho] at h
      split_ifs at h with hmask hwf
      cases h
      rw [opOf_fieldsOf]
      exact ⟨ho, not_not.1 hmask, hwf, rfl⟩
  · rintro ⟨hop, hmask, hwf, hfields⟩
    rw [decode_of_opcode hop, if_neg (not_not.2 hmask), hfields, if_pos hwf]

/-- The payload is that of a command exactly when the reserved bits of its format are zero and its fields are the
operands (R71). -/
theorem payloadOf_eq_iff {i : Instr} {cmd : CmdWord} {rotI : RotWord}
    (hrot : ∀ r rot, i = .ldrot r rot → unpackRotor rotI = rot) :
    cmd.extractLsb' 0 16 = payloadOf i ↔
      cmd &&& reservedMask (formatOf (opOf i)) = 0 ∧ fieldsOf (opOf i) cmd rotI = i := by
  cases i with
  | nop | step => exact reserved_n.symm.trans (and_iff_left rfl).symm
  | ldrot r rot =>
    refine (slice_eq_append_iff (k := 14) (l := 2)).trans ?_
    simp only [opOf, formatOf, fieldsOf, reserved_r, hrot r rot rfl, Instr.ldrot.injEq, and_true, Nat.reduceAdd]
  | setw f m s =>
    refine (slice_eq_append_iff (k := 11) (l := 5)).trans ?_
    refine (and_congr_left' (slice_eq_append_iff (k := 6) (l := 5))).trans ?_
    refine (and_congr_left' (and_congr_left' (slice_eq_append_iff (k := 1) (l := 5)))).trans ?_
    simp only [opOf, formatOf, fieldsOf, reserved_w, Instr.setw.injEq, Nat.reduceAdd]
    tauto
  | enc c | dec c | xfme c | xfmd c =>
    refine (slice_eq_append_iff (k := 11) (l := 5)).trans ?_
    simp only [opOf, formatOf, fieldsOf, reserved_l, Instr.enc.injEq, Instr.dec.injEq, Instr.xfme.injEq,
      Instr.xfmd.injEq, Nat.reduceAdd]

theorem encodeCmd_eq_iff {i : Instr} {cmd : CmdWord} :
    encodeCmd i = cmd ↔ cmd.extractLsb' 16 4 = opcode (opOf i) ∧ cmd.extractLsb' 0 16 = payloadOf i := by
  rw [encodeCmd, eq_comm]
  exact eq_append_iff (k := 4) (l := 16)

/-- A word decodes to a command exactly when it is the command's own encoding, `rot_i` counted for `LDROT` only. -/
theorem decode_eq_ok_iff {cmd : CmdWord} {rotI : RotWord} {i : Instr} :
    decode cmd rotI = .ok i ↔
      i.wellFormed = true ∧ encodeCmd i = cmd ∧ ∀ r rot, i = .ldrot r rot → packRotor rot = rotI := by
  rw [decode_eq_ok, encodeCmd_eq_iff]
  constructor
  · rintro ⟨hop, hmask, hwf, hfields⟩
    have hrot : ∀ r rot, i = .ldrot r rot → unpackRotor rotI = rot := by
      rintro r rot rfl
      exact (Instr.ldrot.inj hfields).2
    exact ⟨hwf, ⟨hop, (payloadOf_eq_iff hrot).2 ⟨hmask, hfields⟩⟩,
      fun r rot h => unpackRotor_eq_iff.1 (hrot r rot h)⟩
  · rintro ⟨hwf, ⟨hop, hpayload⟩, hrot⟩
    obtain ⟨hmask, hfields⟩ := (payloadOf_eq_iff fun r rot h => unpackRotor_eq_iff.2 (hrot r rot h)).1 hpayload
    exact ⟨hop, hmask, hwf, hfields⟩

theorem encodeCmd_toNat (i : Instr) :
    (encodeCmd i).toNat = (opcode (opOf i)).toNat * 2 ^ 16 + (payloadOf i).toNat :=
  toNat_append_eq_add _ _

theorem payloadOf_toNat (i : Instr) : (payloadOf i).toNat =
    match i with
    | .nop | .step => 0
    | .ldrot r _ => r.toNat
    | .setw f m s => 1024 * s.toNat + 32 * m.toNat + f.toNat
    | .enc c | .dec c | .xfme c | .xfmd c => c.toNat := by
  cases i with
  | nop | step => rfl
  | ldrot r => exact (toNat_append_eq_add (k := 14) 0 r).trans (by simp)
  | enc c | dec c | xfme c | xfmd c => exact (toNat_append_eq_add (k := 11) 0 c).trans (by simp)
  | setw f m s =>
    refine (toNat_append_eq_add (k := 11) (0#1 ++ s ++ m) f).trans ?_
    simp only [toNat_append_eq_add, BitVec.toNat_ofNat]
    omega

end Sys2Proof
end

section
/-! SUPPORT. An accepted word runs the command it decodes to; every command answers on valid tables; the response word. -/

namespace Sys2Proof.Machine

theorem runCommand_of_reserved {cmd : CmdWord} (h : cmd.getLsbD 19 = true) (rotI : RotWord) (s : State) :
    runCommand cmd rotI s = .next (raise .illegalCommand s) := by
  rw [runCommand, decode_of_reserved h]

theorem runCommand_of_opcode {cmd : CmdWord} {o : Op} (h : cmd.extractLsb' 16 4 = opcode o) (rotI : RotWord)
    (s : State) :
    runCommand cmd rotI s =
      if cmd &&& reservedMask (formatOf o) = 0 ∧ (fieldsOf o cmd rotI).wellFormed = true then
        exec (fieldsOf o cmd rotI) s
      else .next (raise .illegalCommand s) := by
  rw [runCommand, decode_of_opcode h]
  by_cases hmask : cmd &&& reservedMask (formatOf o) = 0#20 <;>
    by_cases hwf : (fieldsOf o cmd rotI).wellFormed = true <;> simp [hmask, hwf]

theorem invert_isSome {w : Table} (hw : IsPermutation w) : ∃ v, invert? w = some v := by
  have found (j : Letter) : (scan w j).isSome = true := by
    obtain ⟨i, hi, -⟩ := hw j
    exact scan_isSome.2 ⟨i, hi⟩
  exact ⟨_, by rw [invert?, dif_pos found]⟩

theorem inverseTables_isSome {s : State} {m : Rotors} (hs : TablesValid s) (hm : rotorsOf? s = some m) :
    ∃ t, inverseTables? m = some t := by
  obtain ⟨hfast, hmiddle, hslow⟩ := rotorsOf_eq_some.1 hm
  obtain ⟨a, ha⟩ := invert_isSome (hs 0 m.fast hfast)
  obtain ⟨b, hb⟩ := invert_isSome (hs 1 m.middle hmiddle)
  obtain ⟨c, hc⟩ := invert_isSome (hs 2 m.slow hslow)
  refine ⟨⟨a, b, c⟩, ?_⟩
  unfold inverseTables?
  rw [ha, hb, hc]

/-- The outcome is a next state with a response, whose letter is 0 after an error and wherever the command returns no
letter (R77). -/
def Responds (letterless : Prop) (o : Outcome) : Prop :=
  ∃ s' r, o = .next s' ∧ s'.rsp = some r ∧ (r.status ≠ .ok ∨ letterless → r.letter = 0)

section
variable {p : Prop} {s : State}

theorem responds_raise (e : Err) : Responds p (.next (raise e s)) := ⟨_, _, rfl, rfl, fun _ => rfl⟩

theorem responds_ok : Responds p (.next (respond .ok 0 s)) := ⟨_, _, rfl, rfl, fun _ => rfl⟩

theorem responds_letter (hp : ¬p) (l : Letter) : Responds p (.next (respond .ok l s)) :=
  ⟨_, _, rfl, rfl, fun h => h.elim (absurd rfl) (absurd · hp)⟩

theorem responds_whenComplete {k : Rotors → Outcome} (h : ∀ m, rotorsOf? s = some m → Responds p (k m)) :
    Responds p (whenComplete s k) := by
  cases hm : rotorsOf? s with
  | none => rw [whenComplete_of_none hm]; exact responds_raise _
  | some m => rw [whenComplete_of hm]; exact h m hm

theorem responds_whenWindow {k : Triple → Outcome} (h : ∀ w, Responds p (k w)) : Responds p (whenWindow s k) := by
  cases hw : s.pos with
  | none => rw [whenWindow_of_none hw]; exact responds_raise _
  | some w => rw [whenWindow_of hw]; exact h w

theorem responds_whenLetter {c : Code} {k : Letter → Outcome} (h : ∀ x, Responds p (k x)) :
    Responds p (whenLetter c s k) := by
  unfold whenLetter
  split
  · exact responds_raise _
  · exact h _

theorem responds_whenReady {c : Code} {k : Rotors → Triple → Letter → Outcome}
    (h : ∀ m w x, rotorsOf? s = some m → Responds p (k m w x)) : Responds p (whenReady c s k) :=
  responds_whenComplete fun m hm => responds_whenWindow fun w => responds_whenLetter fun x => h m w x hm

theorem responds_withInverses {m : Rotors} {k : Tables → Outcome} (hs : TablesValid s) (hm : rotorsOf? s = some m)
    (h : ∀ t, Responds p (k t)) : Responds p (withInverses m k) := by
  obtain ⟨t, ht⟩ := inverseTables_isSome hs hm
  rw [withInverses_of ht]
  exact h t

theorem execLdrot_responds (r : BitVec 2) (rot : RotorDef) : Responds p (execLdrot r rot s) := by
  unfold execLdrot
  split
  · exact responds_raise _
  · split
    · exact responds_raise _
    · split
      · exact responds_raise _
      · exact responds_ok

theorem execSetw_responds (f m w : Code) : Responds p (execSetw f m w s) := by
  refine responds_whenComplete fun _ _ => ?_
  split
  · exact responds_raise _
  · exact responds_ok

theorem execStep_responds : Responds p (execStep s) :=
  responds_whenComplete fun _ _ => responds_whenWindow fun _ => responds_ok

end

theorem exec_responds (i : Instr) {s : State} (hs : TablesValid s) :
    Responds ((opcode (opOf i)).toNat < 4) (exec i s) := by
  cases i with
  | nop => exact responds_ok
  | ldrot r rot => exact execLdrot_responds r rot
  | setw f m w => exact execSetw_responds f m w
  | step => exact execStep_responds
  | enc c | xfme c => exact responds_whenReady fun _ _ _ _ => responds_letter (by simp [opOf, opcode]) _
  | dec c | xfmd c =>
    exact responds_whenReady fun _ _ _ hm => responds_withInverses hs hm fun _ =>
      responds_letter (by simp [opOf, opcode]) _

theorem runCommand_responds (cmd : CmdWord) (rotI : RotWord) {s : State} (hs : TablesValid s) :
    Responds ((cmd.extractLsb' 16 4).toNat < 4) (runCommand cmd rotI s) := by
  unfold runCommand
  split
  next i h =>
    rw [(decode_eq_ok.1 h).1]
    exact exec_responds i hs
  next => exact responds_raise _

@[simp] theorem responseWord_status (r : Response) : (responseWord r).extractLsb' 5 3 = statusCode r.status :=
  BitVec.extractLsb'_append_eq_left

@[simp] theorem responseWord_letter (r : Response) : (responseWord r).extractLsb' 0 5 = letterCode r.letter :=
  BitVec.extractLsb'_append_eq_right

theorem outputs_of_response {s : State} {r : Response} (h : s.rsp = some r) (fr : RspWord) (fw : BitVec 15) :
    (outputs s fr fw).rspValid = true ∧ (outputs s fr fw).rsp = responseWord r := by
  simp [outputs, h]

end Sys2Proof.Machine
end

section
/-! The obligations about the encoding: the round trips, the four decoding steps, the words as numbers, the responses. -/

namespace Sys2Proof.Machine

/-- Settles O1: the encoding of a command is a word that is its own encoding. -/
theorem decodeOfEncode : Obligations.DecodeOfEncode := fun _ hi =>
  decode_eq_ok_iff.2 ⟨hi, rfl, fun _ _ h => h ▸ rfl⟩

/-- Settles O2: a word that decodes is the encoding of the command it decodes to. -/
theorem encodeOfDecode : Obligations.EncodeOfDecode := by
  intro cmd rotI i h
  obtain ⟨hwf, hcmd, hrot⟩ := decode_eq_ok_iff.1 h
  refine ⟨hwf, hcmd, ?_⟩
  rintro r rot rfl
  exact hrot r rot rfl

/-- Settles O3: by the opcode, and for each command by the reserved field of its format; `LDROT` has the slot number to
check besides. -/
theorem decodingIsTotalInOrder : Obligations.DecodingIsTotalInOrder := by
  intro cmd rotI s
  obtain hres | ⟨o, ho⟩ := reserved_or_opcode cmd
  · simp only [hres, if_true]
    exact runCommand_of_reserved hres rotI s
  · simp only [runCommand_of_opcode ho, ho, not_reserved_of_opcode ho]
    cases o with
    | nop | step =>
      simp only [formatOf, opcode, reserved_n, fieldsOf, Instr.wellFormed]
      by_cases hbits : cmd.extractLsb' 0 16 = 0#16 <;> simp [hbits, raise, respond]
    | ldrot =>
      have hwf : (fieldsOf .ldrot cmd rotI).wellFormed = true ↔ cmd.extractLsb' 0 2 ≠ 3 := bne_iff_ne
      have hload : ∃ d : RotorDef, (∀ i : Fin 26, d.entries[i] = rotI.extractLsb' (5 * i.val) 5) ∧
          d.notch = rotI.extractLsb' 130 5 ∧
          exec (fieldsOf .ldrot cmd rotI) s = exec (.ldrot (cmd.extractLsb' 0 2) d) s :=
        ⟨unpackRotor rotI, unpackRotor_entry rotI, unpackRotor_notch rotI, rfl⟩
      simp only [formatOf, opcode, reserved_r, hwf]
      by_cases hbits : cmd.extractLsb' 2 14 = 0#14
      · by_cases hslot : cmd.extractLsb' 0 2 = 3#2
        · simp [hbits, hslot, raise, respond]
        · simpa [hbits, hslot] using hload
      · simp [hbits, raise, respond]
    | setw =>
      simp only [formatOf, opcode, reserved_w, slice_one_eq_zero_iff, fieldsOf, Instr.wellFormed]
      by_cases hbits : cmd[15] = true <;> simp [hbits, raise, respond]
    | enc | dec | xfme | xfmd =>
      simp only [formatOf, opcode, reserved_l, fieldsOf, Instr.wellFormed]
      by_cases hbits : cmd.extractLsb' 5 11 = 0#11 <;> simp [hbits, raise, respond]

/-- Settles O4: the opcode counts 65536 times and the payload as its operands' places say. -/
theorem commandWordsAsNumbers : Obligations.CommandWordsAsNumbers := by
  refine ⟨rfl, rfl, fun r t n => ?_, fun r w n => ⟨?_, rfl⟩, fun f m s => ?_, fun w => rfl, fun c => ⟨?_, ?_, ?_, ?_⟩,
    letterCode_toNat, fun w => rfl⟩
  all_goals
    refine (encodeCmd_toNat _).trans ?_
    rw [payloadOf_toNat]
    simp [opOf, opcode, Nat.add_assoc]

/-- Settles O6: decoding is all that reads `rot_i`, and it does so for `LDROT` only. -/
theorem onlyLdrotLooksAtRotI : Obligations.OnlyLdrotLooksAtRotI := by
  intro cmd rotI rotI' s h
  rw [runCommand, runCommand, decode_of_ne_ldrot h rotI rotI']

/-- Settles O7: the packed word is the one with these fields. -/
theorem packedRotorFields : Obligations.PackedRotorFields := fun _ => packRotor_eq_iff.1 rfl

/-- Settles O9: a word runs a command or raises `IllegalCommand`, and each answers with a letter only where R77 says. -/
theorem everyCommandResponds : Obligations.EveryCommandResponds := by
  intro cmd rotI s hs
  obtain ⟨s', r, hrun, hrsp, hletter⟩ := runCommand_responds cmd rotI hs
  refine ⟨s', r, hrun, hrsp, fun fr fw => ?_⟩
  obtain ⟨hvalid, hword⟩ := outputs_of_response hrsp fr fw
  rw [hword, responseWord_status, responseWord_letter, letterCode_toNat]
  exact ⟨hvalid, rfl, rfl, fun h => by rw [hletter h]; rfl⟩

/-- Settles O5: fourteen closed decodings, evaluated. -/
theorem specifiedWordsDecode : Obligations.SpecifiedWordsDecode := by
  unfold Obligations.SpecifiedWordsDecode
  decide

/-- Settles O8: the two fields of the response word, and the table of codes. -/
theorem responseWordLayout : Obligations.ResponseWordLayout :=
  ⟨fun r => ⟨responseWord_status r, by rw [responseWord_letter, letterCode_toNat]⟩, rfl, rfl, rfl, rfl, rfl, rfl, rfl,
    rfl⟩

end Sys2Proof.Machine
end

section
/-! SUPPORT. The permutation utilities: when each letter occurs in 26 codes exactly once, when a table has an inverse
and which one it is (R101 to R104). -/

namespace Sys2Proof.Machine

/-- Where all 26 letters occur, the contacts that carry them are all the contacts: there are no more than 26. -/
theorem exists_contacts {t : Vector Code 26} (h : ∀ j : Letter, ∃ i : Fin 26, t[i].toNat = j.val) :
    ∃ g : Letter → Fin 26, (∀ j, t[g j].toNat = j.val) ∧ Function.Surjective g := by
  choose g hg using h
  have hinj : Function.Injective g := fun j j' hj => Fin.ext (by rw [← hg j, hj, hg j'])
  exact ⟨g, hg, Finite.injective_iff_surjective.1 hinj⟩

/-- On 26 entries a letter that occurs twice would leave another no place (R101). -/
theorem validateHw_iff_occurs {t : Vector Code 26} :
    validateHw t = true ↔ ∀ j : Letter, ∃ i : Fin 26, t[i].toNat = j.val := by
  simp only [validateHw_iff, eq_letterCode_iff]
  refine ⟨fun h j => (h j).exists, fun h j => ?_⟩
  obtain ⟨g, hg, hsurj⟩ := exists_contacts h
  refine ⟨g j, hg j, fun i hi => ?_⟩
  obtain ⟨j', rfl⟩ := hsurj i
  rw [Fin.ext ((hg j').symm.trans hi)]

/-- Every entry of a candidate that passes `validate_hw` is a letter (R104). -/
theorem entry_lt_of_validateHw {t : Vector Code 26} (h : validateHw t = true) (i : Fin 26) : t[i].toNat < 26 := by
  obtain ⟨g, hg, hsurj⟩ := exists_contacts (validateHw_iff_occurs.1 h)
  obtain ⟨j, rfl⟩ := hsurj i
  rw [hg j]
  exact j.isLt

theorem validateHw_iff_injective {t : Vector Code 26} :
    validateHw t = true ↔ (∀ i : Fin 26, t[i].toNat < 26) ∧ ∀ i k : Fin 26, t[i] = t[k] → i = k := by
  constructor
  · intro h
    obtain ⟨g, hg, hsurj⟩ := exists_contacts (validateHw_iff_occurs.1 h)
    refine ⟨entry_lt_of_validateHw h, fun i k hik => ?_⟩
    obtain ⟨j, rfl⟩ := hsurj i
    obtain ⟨j', rfl⟩ := hsurj k
    rw [Fin.ext (by rw [← hg j, hik, hg j'] : j.val = j'.val)]
  · rintro ⟨hlt, hinj⟩
    have hinj' : Function.Injective fun i : Fin 26 => (⟨t[i].toNat, hlt i⟩ : Letter) := fun i k hik =>
      hinj i k (BitVec.eq_of_toNat_eq (Fin.mk.inj hik))
    refine validateHw_iff_occurs.2 fun j => ?_
    obtain ⟨i, hi⟩ := Finite.injective_iff_surjective.1 hinj' j
    exact ⟨i, congrArg Fin.val hi⟩

theorem validate_iff {w : List Code} :
    validate w = true ↔ w.length = 26 ∧ ∀ j : Letter, ∃ c ∈ w, c.toNat = j.val := by
  simp [validate, eq_letterCode_iff]

/-- `validate_hw` agrees with `validate` on the 26 entries (R104). -/
theorem validate_toList (t : Vector Code 26) : validate t.toList = validateHw t := by
  rw [Bool.eq_iff_iff, validate_iff, validateHw_iff_occurs]
  simp [Vector.mem_iff_getElem, Fin.exists_iff]

theorem lettersOf_isSome {t : Vector Code 26} (h : ∀ i : Fin 26, t[i].toNat < 26) : ∃ w, lettersOf? t = some w :=
  ⟨_, dif_pos h⟩

theorem wiringOf_isSome {t : Vector Code 26} (h : validateHw t = true) : ∃ w, wiringOf? t = some w := by
  obtain ⟨w, hw⟩ := lettersOf_isSome (entry_lt_of_validateHw h)
  exact ⟨w, wiringOf_eq_some.2 ⟨h, hw⟩⟩

theorem wiringOf_of_missing_letter {t : Vector Code 26} {j : Letter} (h : ∀ i : Fin 26, t[i].toNat ≠ j.val) :
    wiringOf? t = none := by
  refine if_neg fun hvalid => ?_
  obtain ⟨i, hi⟩ := validateHw_iff_occurs.1 hvalid j
  exact h i hi

theorem isPermutation_of_surjective {w : Table} (h : ∀ j : Letter, ∃ i : Letter, w[i] = j) : IsPermutation w := by
  have hinj : Function.Injective fun i : Letter => w[i] := Finite.injective_iff_surjective.2 h
  exact (isPermutation_iff_injective w).2 fun i k hik => hinj hik

theorem invert_right {w v : Table} (h : invert? w = some v) (j : Letter) : w[v[j]] = j :=
  scan_some (invert_eq_some h j)

theorem isPermutation_iff_invert {w : Table} : IsPermutation w ↔ ∃ v, invert? w = some v := by
  refine ⟨invert_isSome, ?_⟩
  rintro ⟨v, hv⟩
  exact isPermutation_of_surjective fun j => ⟨v[j], invert_right hv j⟩

/-- `invert` gives the one table that undoes the forward one in both orders, so it is its own inverse (R103). -/
theorem invert_eq_some_iff {w v : Table} :
    invert? w = some v ↔ (∀ i : Letter, v[w[i]] = i) ∧ ∀ j : Letter, w[v[j]] = j := by
  constructor
  · intro h
    refine ⟨fun i => ?_, invert_right h⟩
    have hw : IsPermutation w := isPermutation_iff_invert.2 ⟨v, h⟩
    exact (isPermutation_iff_injective w).1 hw _ _ (invert_right h w[i])
  · rintro ⟨-, hright⟩
    have hw : IsPermutation w := isPermutation_of_surjective fun j => ⟨v[j], hright j⟩
    obtain ⟨u, hu⟩ := invert_isSome hw
    have huv (j : Letter) : u[j] = v[j] :=
      (isPermutation_iff_injective w).1 hw _ _ ((invert_right hu j).trans (hright j).symm)
    rw [hu, Vector.ext fun j hj => huv ⟨j, hj⟩]

theorem inverseTables_eq_some {m : Rotors} {t : Tables} :
    inverseTables? m = some t ↔ invert? m.fast.wiring = some t.fast ∧ invert? m.middle.wiring = some t.middle ∧
      invert? m.slow.wiring = some t.slow := by
  constructor
  · intro h
    unfold inverseTables? at h
    split at h
    next hfast hmiddle hslow =>
      cases h
      exact ⟨hfast, hmiddle, hslow⟩
    next => cases h
  · rintro ⟨hfast, hmiddle, hslow⟩
    unfold inverseTables?
    rw [hfast, hmiddle, hslow]

end Sys2Proof.Machine
end

section
/-! SUPPORT. `LDROT` by its checks, the slots it keeps, and where the inverse tables are missing (R102, R105). -/

namespace Sys2Proof.Machine

theorem slotOf_eq_none {r : BitVec 2} : slotOf? r = none ↔ r = 3 := by revert r; decide

theorem slotOf_isSome {r : BitVec 2} (h : r ≠ 3) : ∃ k, slotOf? r = some k :=
  Option.ne_none_iff_exists'.1 (mt slotOf_eq_none.1 h)

section
variable {r : BitVec 2} {rot : RotorDef} {k : Slot}

theorem execLdrot_of_no_slot (hk : slotOf? r = none) (s : State) :
    execLdrot r rot s = .next (raise .illegalCommand s) := by
  simp only [execLdrot, hk]

theorem execLdrot_of_no_wiring (hk : slotOf? r = some k) (hw : wiringOf? rot.entries = none) (s : State) :
    execLdrot r rot s = .next (raise .invalidWiring s) := by
  simp only [execLdrot, hk, hw]

theorem execLdrot_of_no_notch {w : Table} (hk : slotOf? r = some k) (hw : wiringOf? rot.entries = some w)
    (hn : letterOfCode? rot.notch = none) (s : State) : execLdrot r rot s = .next (raise .invalidNotch s) := by
  simp only [execLdrot, hk, hw, hn]

theorem execLdrot_of_valid {w : Table} {n : Letter} (hk : slotOf? r = some k) (hw : wiringOf? rot.entries = some w)
    (hn : letterOfCode? rot.notch = some n) (s : State) :
    execLdrot r rot s = .next (respond .ok 0 (clearWindow (loadSlot k ⟨w, n⟩ s))) := by
  simp only [execLdrot, hk, hw, hn]

end

/-- `LDROT` writes no slot but that of its slot field. -/
theorem Effect.slot_eq_of_ne {r : BitVec 2} {rot : RotorDef} {s s' : State} (h : Effect (.ldrot r rot) s s') {q : Slot}
    (hq : q.val ≠ r.toNat) : s'.slots[q] = s.slots[q] := by
  cases h with
  | error | answer | window | move => rfl
  | load _ _ k w n hi hk =>
    obtain ⟨rfl, -⟩ := Instr.ldrot.inj hi
    have hkq : k ≠ q := by
      rintro rfl
      exact hq (slotOf_eq_some.1 hk).symm
    exact (loadSlot_slot s k q ⟨w, n⟩).trans (if_neg hkq)

/-- `LDROT` leaves the triple or clears it (R23). -/
theorem Effect.pos_of_ldrot {r : BitVec 2} {rot : RotorDef} {s s' : State} (h : Effect (.ldrot r rot) s s') :
    s'.pos = s.pos ∨ s'.pos = none := by
  cases h with
  | error | answer => exact .inl rfl
  | load => exact .inr rfl
  | window _ _ _ _ hi => cases hi
  | move _ _ _ hi => cases hi

/-- With a table that is no permutation there are no inverse tables to go on with (R102, U3). -/
theorem withInverses_of_not_permutation {m : Rotors}
    (h : ¬(IsPermutation m.fast.wiring ∧ IsPermutation m.middle.wiring ∧ IsPermutation m.slow.wiring))
    (k : Tables → Outcome) : withInverses m k = .refused .invertOfUnvalidatedTable := by
  unfold withInverses
  split
  · rfl
  next t ht =>
    obtain ⟨hfast, hmiddle, hslow⟩ := inverseTables_eq_some.1 ht
    exact absurd ⟨isPermutation_iff_invert.2 ⟨_, hfast⟩, isPermutation_iff_invert.2 ⟨_, hmiddle⟩,
      isPermutation_iff_invert.2 ⟨_, hslow⟩⟩ h

end Sys2Proof.Machine
end

section
/-! The obligations about permutations: `validate` and `invert`, `LDROT` with its errors and its frame, and where an
inverse table is missing. -/

namespace Sys2Proof.Machine

/-- Settles O45: every letter occurring is the form that all the others come back to. -/
theorem validateRules : Obligations.ValidateRules := by
  refine ⟨fun w => ?_, fun t => ⟨?_, validateHw_iff_injective, (validate_toList t).symm⟩⟩
  · rw [validate_iff, Fin.forall_iff]
  · rw [validateHw_iff, Fin.forall_iff]
    simp only [eq_letterCode_iff]
    rfl

/-- Settles O46: the two cancellation laws fix the inverse, and they are symmetric in the two tables. -/
theorem invertLaws : Obligations.InvertLaws := by
  intro w hw
  obtain ⟨v, hv⟩ := invert_isSome hw
  obtain ⟨hleft, hright⟩ := invert_eq_some_iff.1 hv
  have hback : invert? v = some w := invert_eq_some_iff.2 ⟨hright, hleft⟩
  exact ⟨v, hv, isPermutation_iff_invert.2 ⟨w, hback⟩, hback, fun i => ⟨hleft i, hright i⟩⟩

/-- Settles O18: the three checks pass, and the loaded table spells the entries. -/
theorem ldrotLoadsRotor : Obligations.LdrotLoadsRotor := by
  intro r k rot s hk hentries hnotch
  obtain ⟨w, hw⟩ := wiringOf_isSome (validateHw_iff_occurs.2 fun j => (hentries j).imp fun _ hi => hi.1)
  have hn : letterOfCode? rot.notch = some ⟨rot.notch.toNat, hnotch⟩ := letterOfCode_eq_some.2 rfl
  exact ⟨w, _, wiringOf_entry hw, rfl, execLdrot_of_valid (slotOf_eq_some.2 hk) hw hn s⟩

/-- Settles O19: the first check that fails, with those before it passed. -/
theorem ldrotErrorsInOrder : Obligations.LdrotErrorsInOrder := by
  intro r rot s
  refine ⟨fun hr => execLdrot_of_no_slot (slotOf_eq_none.2 hr) s, fun hr j hmissing => ?_,
    fun hr hoccurs hnotch => ?_⟩
  all_goals obtain ⟨k, hk⟩ := slotOf_isSome hr
  · exact execLdrot_of_no_wiring hk (wiringOf_of_missing_letter hmissing) s
  · obtain ⟨w, hw⟩ := wiringOf_isSome (validateHw_iff_occurs.2 hoccurs)
    exact execLdrot_of_no_notch hk hw (letterOfCode_eq_none.2 hnotch) s

/-- Settles O28: what a slot shows is read off the slot, and only the one named is written. -/
theorem ldrotFrame : Obligations.LdrotFrame := by
  intro r rot s s' h
  have he := exec_next h
  refine ⟨he.host_eq, he.pos_of_ldrot, fun q hq => ?_⟩
  have hslot := he.slot_eq_of_ne hq
  simp only [State.rv, tblRead?, hslot, implies_true, and_self]

/-- Settles O27: the machine is ready, so the command asks for the inverse tables. -/
theorem invertOfUnvalidatedTableStops : Obligations.InvertOfUnvalidatedTableStops := by
  intro c s m p i hi hs hc hbad
  simp only [List.mem_cons, List.not_mem_nil, or_false] at hi
  obtain rfl | rfl := hi
  all_goals
    exact (whenReady_of_ready (x := ⟨c.toNat, hc⟩) hs rfl _).trans (withInverses_of_not_permutation hbad _)

end Sys2Proof.Machine
end

section
/-! SUPPORT. The three ways `advance` can go, when a triple is a successor, the cycle, and how far the fast rotor gets
(R121, R130). -/

namespace Sys2Proof.Machine

section
variable {p : Triple} {nf nm : Letter}

theorem inc26_sub26_one (x : Letter) : inc26 (sub26 x 1) = x := add26_sub26 x 1

theorem ite_inc26_injective {carry : Prop} [Decidable carry] {a b : Letter}
    (h : (if carry then inc26 a else a) = if carry then inc26 b else b) : a = b := by
  split at h
  · exact inc26_injective h
  · exact h

theorem triple_eq {q : Triple} (hf : p.fast = q.fast) (hm : p.middle = q.middle) (hs : p.slow = q.slow) : p = q := by
  cases p
  cases q
  congr

theorem advance_of_middle_at_notch (hm : p.middle = nm) :
    advance p nf nm = ⟨inc26 p.fast, inc26 p.middle, inc26 p.slow⟩ := by
  simp [advance, carryToMiddle_iff, carryToSlow_iff, hm]

theorem advance_of_fast_at_notch (hf : p.fast = nf) (hm : p.middle ≠ nm) :
    advance p nf nm = ⟨inc26 p.fast, inc26 p.middle, p.slow⟩ := by
  simp [advance, carryToMiddle_iff, carryToSlow_iff, hf, hm]

theorem advance_of_no_carry (hf : p.fast ≠ nf) (hm : p.middle ≠ nm) :
    advance p nf nm = ⟨inc26 p.fast, p.middle, p.slow⟩ := by
  simp [advance, carryToMiddle_iff, carryToSlow_iff, hf, hm]

/-- A step that ends with the middle rotor at its notch moved that rotor there, by a carry from the fast one. -/
theorem fast_of_advance_middle_eq (h : (advance p nf nm).middle = nm) : (advance p nf nm).fast = inc26 nf := by
  rw [advance_middle] at h
  split at h
  next hcarry =>
    obtain hf | hm := hcarry
    · rw [advance_fast, hf]
    · exact absurd (h.trans hm.symm) (inc26_ne p.middle)
  next hcarry => exact absurd (.inr h) hcarry

/-- The triples that are no successor are those of R130 (c). -/
theorem exists_advance_eq_iff {p' : Triple} :
    (∃ p, advance p nf nm = p') ↔ (p'.middle = nm → p'.fast = inc26 nf) := by
  constructor
  · rintro ⟨p, rfl⟩
    exact fast_of_advance_middle_eq
  · obtain ⟨f', m', s'⟩ := p'
    intro h
    by_cases hm' : m' = inc26 nm
    · exact ⟨⟨sub26 f' 1, nm, sub26 s' 1⟩, by simp [advance_of_middle_at_notch, inc26_sub26_one, hm']⟩
    by_cases hf' : f' = inc26 nf
    · have hm : sub26 m' 1 ≠ nm := fun e => hm' (by rw [← e, inc26_sub26_one])
      exact ⟨⟨nf, sub26 m' 1, s'⟩, by simp [advance_of_fast_at_notch, hm, inc26_sub26_one, hf']⟩
    · have hf : sub26 f' 1 ≠ nf := fun e => hf' (by rw [← e, inc26_sub26_one])
      exact ⟨⟨sub26 f' 1, m', s'⟩, by simp [advance_of_no_carry, hf, mt h hf', inc26_sub26_one]⟩

/-- The triples of R130 (d) are reached from both rotors at their notches, and from nowhere else. -/
theorem advance_past_notches_iff :
    ((advance p nf nm).fast = inc26 nf ∧ (advance p nf nm).middle = inc26 nm) ↔ p.fast = nf ∧ p.middle = nm := by
  constructor
  · rintro ⟨hfast, hmiddle⟩
    have hf : p.fast = nf := inc26_injective hfast
    rw [advance_middle, if_pos (.inl hf)] at hmiddle
    exact ⟨hf, inc26_injective hmiddle⟩
  · rintro ⟨rfl, rfl⟩
    simp [advance_of_middle_at_notch]

theorem not_both_at_notch (h : p.middle = nm → p.fast = inc26 nf) : ¬(p.fast = nf ∧ p.middle = nm) :=
  fun ⟨hf, hm⟩ => inc26_ne nf ((h hm).symm.trans hf)

theorem onCycle_iff :
    OnCycle nf nm p ↔ (p.middle = nm → p.fast = inc26 nf) ∧ ¬(p.fast = inc26 nf ∧ p.middle = inc26 nm) := by
  simp only [OnCycle, not_and, not_not]

/-- A triple that has a predecessor steps onto the cycle: its rotors are not both at their notches (R130 (d)). -/
theorem onCycle_advance (h : p.middle = nm → p.fast = inc26 nf) : OnCycle nf nm (advance p nf nm) :=
  onCycle_iff.2 ⟨fast_of_advance_middle_eq, mt advance_past_notches_iff.1 (not_both_at_notch h)⟩

/-- Of two triples on the cycle with one successor, both or neither have the middle rotor at its notch. -/
theorem middle_at_notch_of_advance_eq {q : Triple} (hp : OnCycle nf nm p) (hq : OnCycle nf nm q)
    (h : advance p nf nm = advance q nf nm) (hm : p.middle = nm) : q.middle = nm := by
  by_contra hqm
  have hpq : p.fast = q.fast := inc26_injective (congrArg Triple.fast h)
  have hqf : q.fast = inc26 nf := hpq ▸ (onCycle_iff.1 hp).1 hm
  have hmiddle := congrArg Triple.middle h
  rw [advance_of_middle_at_notch hm, advance_of_no_carry (hqf ▸ inc26_ne nf) hqm] at hmiddle
  exact (onCycle_iff.1 hq).2 ⟨hqf, hm ▸ hmiddle.symm⟩

theorem advance_injective_onCycle {q : Triple} (hp : OnCycle nf nm p) (hq : OnCycle nf nm q)
    (h : advance p nf nm = advance q nf nm) : p = q := by
  have hfast : p.fast = q.fast := inc26_injective (congrArg Triple.fast h)
  have hcarry : p.middle = nm ↔ q.middle = nm :=
    ⟨middle_at_notch_of_advance_eq hp hq h, middle_at_notch_of_advance_eq hq hp h.symm⟩
  have hmiddle := congrArg Triple.middle h
  have hslow := congrArg Triple.slow h
  simp only [advance_middle, advance_slow, hfast, hcarry] at hmiddle hslow
  exact triple_eq hfast (ite_inc26_injective hmiddle) (ite_inc26_injective hslow)

theorem iterate_advance_fast (p : Triple) (nf nm : Letter) (k : Nat) :
    ((fun q => advance q nf nm)^[k] p).fast.val = (p.fast.val + k) % 26 := by
  induction k with
  | zero => exact (Nat.mod_eq_of_lt p.fast.isLt).symm
  | succ k ih => rw [Function.iterate_succ_apply', advance_fast, inc26_val, ih]; omega

end

end Sys2Proof.Machine
end

section
/-! SUPPORT. `rotor_stepper` in bits against the commands: `pos_next`, and what each kind of command makes of the
registers (R127, R131). -/

namespace Sys2Proof.Machine

theorem incBits_letterCode (x : Letter) : incBits (letterCode x) = letterCode (inc26 x) := by
  revert x; decide

theorem letterCode_beq (x y : Letter) : (letterCode x == letterCode y) = (x == y) := by
  rw [Bool.eq_iff_iff, beq_iff_eq, beq_iff_eq]
  exact ⟨letterCode_injective, congrArg letterCode⟩

theorem posNext_packTriple (p : Triple) (nf nm : Letter) :
    posNext (packTriple p) (letterCode nf) (letterCode nm) = packTriple (advance p nf nm) := by
  simp only [posNext, packTriple_fast, packTriple_middle, packTriple_slow, incBits_letterCode, letterCode_beq,
    ← apply_ite letterCode]
  rfl

theorem eq_letterCode_of_some {c : Code} {x : Letter} (h : letterOfCode? c = some x) : c = letterCode x :=
  eq_letterCode_iff.2 (letterOfCode_eq_some.1 h)

/-- The fields of a valid window setting side by side are its triple on `ld_pos` (R73, R127). -/
theorem append_eq_packTriple {f m s : Code} {p : Triple} (h : windowOf? f m s = some p) :
    s ++ m ++ f = packTriple p := by
  unfold windowOf? at h
  split at h
  next hf hm hs =>
    cases h
    rw [eq_letterCode_of_some hf, eq_letterCode_of_some hm, eq_letterCode_of_some hs, packTriple]
  next => cases h

theorem stepperNext_of_error (q : StepperRegs) (i : Instr) (nf nm : Code) :
    stepperNext q (stepperSignals i false nf nm) = q := by
  cases i <;> rfl

theorem stepperNext_of_move {i : Instr} (hi : movesRotors i = true) (q : StepperRegs) (nf nm : Code) :
    stepperNext q (stepperSignals i true nf nm) = { q with pos := posNext q.pos nf nm } := by
  obtain rfl | ⟨c, rfl⟩ | ⟨c, rfl⟩ := movesRotors_iff.1 hi <;> rfl

theorem StepperMatches.of_pos_eq {q : StepperRegs} {s s' : State} (h : StepperMatches q s) (hpos : s'.pos = s.pos) :
    StepperMatches q s' :=
  ⟨h.pv.trans (pv_of_pos hpos).symm, fun p hp => h.pos p (hpos ▸ hp)⟩

/-- Each effect of a command on the triple is the one its asserted input has on the registers. -/
theorem Effect.stepperMatches {i : Instr} {s s' : State} {q : StepperRegs} {nf nm : Letter} (he : Effect i s s')
    (hq : StepperMatches q s) (hf : ∀ t ∈ s.slots[0], t.notch = nf) (hm : ∀ t ∈ s.slots[1], t.notch = nm) :
    StepperMatches (stepperNext q (stepperSignals i (answeredOk s') (letterCode nf) (letterCode nm))) s' := by
  cases he with
  | error e =>
    rw [answeredOk_raise, stepperNext_of_error]
    exact hq.of_pos_eq rfl
  | answer l hi =>
    obtain rfl | ⟨c, rfl⟩ | ⟨c, rfl⟩ := hi
    all_goals exact hq.of_pos_eq rfl
  | load r rot k w n hi =>
    subst hi
    exact ⟨rfl, nofun⟩
  | window f m w p hi hw =>
    subst hi
    refine ⟨rfl, fun p' hp' => ?_⟩
    cases hp'
    exact append_eq_packTriple hw
  | move m p l hi hrot hp =>
    obtain ⟨hfast, hmiddle, -⟩ := rotorsOf_eq_some.1 hrot
    rw [answeredOk_respond, stepperNext_of_move hi, hq.pos p hp, posNext_packTriple, ← hf m.fast hfast,
      ← hm m.middle hmiddle]
    have hpv : s.pv = true := congrArg Option.isSome hp
    refine ⟨hq.pv.trans hpv, fun p' hp' => ?_⟩
    cases hp'
    rfl

end Sys2Proof.Machine
end

section
/-! SUPPORT. Machines that differ at most in `notch[2]`: the operations and the shared checks keep them so, and no
command reads that notch (R125). -/

namespace Sys2Proof.Machine

theorem loadSlot_slot_congr {α : Type} {s t : State} {q : Slot} (f : Option Rotor → α)
    (h : f s.slots[q] = f t.slots[q]) (r : Slot) (rot : Rotor) :
    f (loadSlot r rot s).slots[q] = f (loadSlot r rot t).slots[q] := by
  rw [loadSlot_slot, loadSlot_slot]
  split
  · rfl
  · exact h

/-- The rotors with another notch in slot 2. -/
def Rotors.withSlowNotch (m : Rotors) (n : Letter) : Rotors := ⟨m.fast, m.middle, ⟨m.slow.wiring, n⟩⟩

/-- Outcomes that two machines with the same behaviour may have: next states that differ at most in `notch[2]`, or one
refusal. -/
inductive AnswersAlike : Outcome → Outcome → Prop where
  | next {s t : State} (h : SameButSlowNotch s t) : AnswersAlike (.next s) (.next t)
  | refused (r : Refusal) : AnswersAlike (.refused r) (.refused r)

section
variable {s t : State} (h : SameButSlowNotch s t)
include h

theorem SameButSlowNotch.respond (st : Status) (l : Letter) : SameButSlowNotch (respond st l s) (respond st l t) :=
  { h with rsp := rfl }

theorem SameButSlowNotch.clearWindow : SameButSlowNotch (clearWindow s) (clearWindow t) := { h with pos := rfl }

theorem SameButSlowNotch.setTriple (p : Triple) : SameButSlowNotch (setTriple p s) (setTriple p t) :=
  { h with pos := rfl }

theorem SameButSlowNotch.loadSlot (r : Slot) (rot : Rotor) :
    SameButSlowNotch (loadSlot r rot s) (loadSlot r rot t) :=
  { h with
    fast := loadSlot_slot_congr (q := 0) id h.fast r rot
    middle := loadSlot_slot_congr (q := 1) id h.middle r rot
    slow := loadSlot_slot_congr (q := 2) (Option.map (·.wiring)) h.slow r rot }

theorem SameButSlowNotch.complete_eq : s.complete = t.complete := by
  have hslow : s.slots[2].isSome = t.slots[2].isSome := by simpa using congrArg Option.isSome h.slow
  exact congrArg₂ and (congrArg₂ and (congrArg Option.isSome h.fast) (congrArg Option.isSome h.middle)) hslow

theorem SameButSlowNotch.rotorsOf_eq {m : Rotors} (hm : rotorsOf? s = some m) :
    ∃ n, rotorsOf? t = some (m.withSlowNotch n) := by
  obtain ⟨hfast, hmiddle, hslow⟩ := rotorsOf_eq_some.1 hm
  have hw := h.slow
  rw [hslow] at hw
  obtain ⟨rot, hrot, hwiring⟩ := Option.map_eq_some_iff.1 hw.symm
  refine ⟨rot.notch, rotorsOf_eq_some.2 ⟨h.fast ▸ hfast, h.middle ▸ hmiddle, hrot.trans ?_⟩⟩
  simp only [Rotors.withSlowNotch, ← hwiring]

theorem alike_raise (e : Err) : AnswersAlike (.next (raise e s)) (.next (raise e t)) := .next (h.respond _ _)

theorem alike_whenComplete {k k' : Rotors → Outcome} (hk : ∀ m n, AnswersAlike (k m) (k' (m.withSlowNotch n))) :
    AnswersAlike (whenComplete s k) (whenComplete t k') := by
  cases hm : rotorsOf? s with
  | none =>
    have ht : rotorsOf? t = none := rotorsOf_eq_none.2 (h.complete_eq ▸ rotorsOf_eq_none.1 hm)
    rw [whenComplete_of_none hm, whenComplete_of_none ht]
    exact alike_raise h _
  | some m =>
    obtain ⟨n, hn⟩ := h.rotorsOf_eq hm
    rw [whenComplete_of hm, whenComplete_of hn]
    exact hk m n

theorem alike_whenWindow {k k' : Triple → Outcome} (hk : ∀ p, AnswersAlike (k p) (k' p)) :
    AnswersAlike (whenWindow s k) (whenWindow t k') := by
  cases hp : s.pos with
  | none =>
    rw [whenWindow_of_none hp, whenWindow_of_none (h.pos ▸ hp)]
    exact alike_raise h _
  | some p =>
    rw [whenWindow_of hp, whenWindow_of (h.pos ▸ hp)]
    exact hk p

theorem alike_whenLetter (c : Code) {k k' : Letter → Outcome} (hk : ∀ x, AnswersAlike (k x) (k' x)) :
    AnswersAlike (whenLetter c s k) (whenLetter c t k') := by
  unfold whenLetter
  split
  · exact alike_raise h _
  · exact hk _

theorem alike_whenReady (c : Code) {k k' : Rotors → Triple → Letter → Outcome}
    (hk : ∀ m n p x, AnswersAlike (k m p x) (k' (m.withSlowNotch n) p x)) :
    AnswersAlike (whenReady c s k) (whenReady c t k') :=
  alike_whenComplete h fun m n => alike_whenWindow h fun p => alike_whenLetter h c fun x => hk m n p x

end

/-- The inverse tables do not depend on the notches. -/
theorem alike_withInverses {m : Rotors} {n : Letter} {k k' : Tables → Outcome} (hk : ∀ w, AnswersAlike (k w) (k' w)) :
    AnswersAlike (withInverses m k) (withInverses (m.withSlowNotch n) k') := by
  show AnswersAlike (withInverses m k) (withInverses m k')
  unfold withInverses
  split
  · exact .refused _
  · exact hk _

section
variable {s t : State} (h : SameButSlowNotch s t)
include h

theorem execLdrot_alike (r : BitVec 2) (rot : RotorDef) : AnswersAlike (execLdrot r rot s) (execLdrot r rot t) := by
  unfold execLdrot
  split
  · exact alike_raise h _
  · split
    · exact alike_raise h _
    · split
      · exact alike_raise h _
      · exact .next ((h.loadSlot _ _).clearWindow.respond _ _)

theorem execSetw_alike (f m w : Code) : AnswersAlike (execSetw f m w s) (execSetw f m w t) := by
  refine alike_whenComplete h fun _ _ => ?_
  split
  · exact alike_raise h _
  · exact .next ((h.setTriple _).respond _ _)

/-- No command reads `notch[2]`: `advance` takes the notches of the fast and the middle rotor (R125). -/
theorem exec_alike (i : Instr) : AnswersAlike (exec i s) (exec i t) := by
  cases i with
  | nop => exact .next (h.respond _ _)
  | ldrot r rot => exact execLdrot_alike h r rot
  | setw f m w => exact execSetw_alike h f m w
  | step =>
    exact alike_whenComplete h fun m _ => alike_whenWindow h fun p =>
      .next ((h.setTriple (advanceBy m p)).respond _ _)
  | enc c => exact alike_whenReady h c fun m _ p _ => .next ((h.setTriple (advanceBy m p)).respond _ _)
  | dec c =>
    exact alike_whenReady h c fun m _ p _ => alike_withInverses fun _ =>
      .next ((h.setTriple (advanceBy m p)).respond _ _)
  | xfme c => exact alike_whenReady h c fun _ _ _ _ => .next (h.respond _ _)
  | xfmd c => exact alike_whenReady h c fun _ _ _ _ => alike_withInverses fun _ => .next (h.respond _ _)

theorem runCommand_alike (cmd : CmdWord) (rotI : RotWord) :
    AnswersAlike (runCommand cmd rotI s) (runCommand cmd rotI t) := by
  unfold runCommand
  split
  · exact exec_alike h _
  · exact alike_raise h _

theorem alike_resetCore : AnswersAlike (.next (resetCore s)) (.next (resetCore t)) :=
  .next ⟨rfl, rfl, rfl, rfl, rfl, h.host⟩

theorem alike_holdState : AnswersAlike (.next (holdState s)) (.next (holdState t)) :=
  .next { h with rsp := rfl }

theorem runMove_alike (m : HostMove) : AnswersAlike (runMove m s) (runMove m t) := by
  cases m with
  | edge e =>
    simp only [runMove, runEdge]
    split
    · exact alike_resetCore h
    · split
      · exact runCommand_alike h _ _
      · exact alike_holdState h
  | resetInFlight => exact alike_resetCore h
  | breach => exact .refused _

theorem step_alike : AnswersAlike (step s) (step t) := by
  cases hs : s.host with
  | nil =>
    rw [step_of_no_move hs, step_of_no_move (h.host ▸ hs)]
    exact alike_holdState h
  | cons m rest =>
    rw [step_of_move hs, step_of_move (h.host ▸ hs)]
    have hrest : SameButSlowNotch { s with host := rest } { t with host := rest } := { h with host := rfl }
    exact runMove_alike hrest m

end

end Sys2Proof.Machine
end

section
/-! The obligations about stepping: `advance` and its long run, `STEP`, the slow notch, and `rotor_stepper` in bits. -/

namespace Sys2Proof.Machine

/-- Settles O41: every check and every effect of a step is the same for both machines. -/
theorem slowNotchNeverConsulted : Obligations.SlowNotchNeverConsulted := by
  intro s t h
  have halike := step_alike h
  generalize step s = a, step t = b at halike ⊢
  cases halike with
  | next h' => exact h'
  | refused => rfl

/-- Settles O56: whatever effect the command has, its asserted input has it on the registers. -/
theorem stepperBlockFollowsCommands : Obligations.StepperBlockFollowsCommands :=
  fun _ _ _ _ _ _ hq hf hm h => (exec_next h).stepperMatches hq hf hm

/-- Settles O21: the checks in order, and a payload that is all reserved bits. -/
theorem stepCommand : Obligations.StepCommand := by
  refine ⟨fun s => ⟨fun hc => ?_, fun hc hp => ?_, fun m p hs => ?_⟩, fun cmd rotI s hop => ?_⟩
  · exact whenComplete_of_none (rotorsOf_eq_none.2 hc) _
  · obtain ⟨m, hm⟩ := Option.isSome_iff_exists.1 ((complete_eq_isSome s).symm.trans hc)
    exact (whenComplete_of hm _).trans (whenWindow_of_none hp _)
  · exact (whenComplete_of hs.rotors _).trans (whenWindow_of hs.window _)
  · rw [runCommand_of_opcode (o := .step) hop]
    simp only [formatOf, reserved_n, fieldsOf, Instr.wellFormed]
    by_cases hbits : cmd.extractLsb' 0 16 = 0#16 <;> simp [hbits, raise, respond]

/-- Settles O42: with the middle rotor at its notch only a carry from the fast rotor leads to the triple, and every other
triple has a predecessor. -/
theorem triplesWithoutPredecessor : Obligations.TriplesWithoutPredecessor := by
  intro p' nf nm
  rw [exists_advance_eq_iff, Classical.not_imp]

/-- Settles O43: the first step leaves (c) of R130, the second also (d). -/
theorem steppingSettlesOnCycle : Obligations.SteppingSettlesOnCycle := by
  intro nf nm
  refine ⟨fun p => onCycle_advance fast_of_advance_middle_eq, fun p hp => onCycle_advance (onCycle_iff.1 hp).1,
    fun p hp => not_both_at_notch (onCycle_iff.1 hp).1, fun p q => advance_injective_onCycle⟩

/-- Settles O44: after `k` steps the fast position is `k` further modulo 26. -/
theorem fastRotorHasPeriod26 : Obligations.FastRotorHasPeriod26 := by
  intro p nf nm
  refine ⟨Fin.ext ?_, fun k hpos hlt heq => ?_⟩
  · rw [iterate_advance_fast]
    omega
  · have := congrArg Fin.val heq
    rw [iterate_advance_fast] at this
    omega

/-- Settles O55: the comparators compare codes of letters, and the incrementers are `inc26` on codes. -/
theorem posNextIsAdvance : Obligations.PosNextIsAdvance := posNext_packTriple

/-- Settles O39: the three parts of `advance`, as numbers. -/
theorem advanceRule : Obligations.AdvanceRule := by
  intro p nf nm
  simp only [advance_fast, advance_middle, advance_slow, apply_ite Fin.val, inc26_val, Fin.ext_iff, and_self]

end Sys2Proof.Machine
end

section
/-! SUPPORT. One rotor pass and `transform` undone by the inverse tables, and the commands that transform at the current
triple (R141 to R145, R148, R149). -/

namespace Sys2Proof.Machine

/-- The pass that undoes another: the offsets cancel, and so do the lookups (R144). -/
theorem rotorPass_leftInverse {w v : Table} (h : ∀ i : Letter, v[w[i]] = i) (p : Letter) :
    Function.LeftInverse (fun x => rotorPass x p v) (fun x => rotorPass x p w) := by
  intro x
  simp only [rotorPass, add26_sub26, h, sub26_add26]

theorem rotorPass_bijective {w : Table} (hw : IsPermutation w) (p : Letter) :
    Function.Bijective fun x => rotorPass x p w := by
  obtain ⟨v, hv⟩ := invert_isSome hw
  obtain ⟨hleft, hright⟩ := invert_eq_some_iff.1 hv
  exact Function.bijective_iff_has_inverse.2
    ⟨_, rotorPass_leftInverse hleft p, rotorPass_leftInverse hright p⟩

theorem rotorPass_of_identity {w : Table} (h : ∀ i : Letter, w[i] = i) (x p : Letter) : rotorPass x p w = x := by
  rw [rotorPass, h, sub26_add26]

theorem inverseTables_of_isPermutation {m : Rotors} (hfast : IsPermutation m.fast.wiring)
    (hmiddle : IsPermutation m.middle.wiring) (hslow : IsPermutation m.slow.wiring) :
    ∃ t, inverseTables? m = some t := by
  obtain ⟨a, ha⟩ := invert_isSome hfast
  obtain ⟨b, hb⟩ := invert_isSome hmiddle
  obtain ⟨c, hc⟩ := invert_isSome hslow
  exact ⟨⟨a, b, c⟩, inverseTables_eq_some.2 ⟨ha, hb, hc⟩⟩

section
variable {m : Rotors} {t : Tables} (ht : inverseTables? m = some t)
include ht

theorem transformDec_transformEnc (c : Letter) (p : Triple) :
    transformDec (transformEnc c p (forwardTables m)) p t = c := by
  obtain ⟨hfast, hmiddle, hslow⟩ := inverseTables_eq_some.1 ht
  have undoSlow := rotorPass_leftInverse (invert_eq_some_iff.1 hslow).1 p.slow
  have undoMiddle := rotorPass_leftInverse (invert_eq_some_iff.1 hmiddle).1 p.middle
  have undoFast := rotorPass_leftInverse (invert_eq_some_iff.1 hfast).1 p.fast
  exact (undoSlow.comp (undoMiddle.comp undoFast)) c

theorem transformEnc_transformDec (c : Letter) (p : Triple) :
    transformEnc (transformDec c p t) p (forwardTables m) = c := by
  obtain ⟨hfast, hmiddle, hslow⟩ := inverseTables_eq_some.1 ht
  have redoFast := rotorPass_leftInverse (invert_eq_some_iff.1 hfast).2 p.fast
  have redoMiddle := rotorPass_leftInverse (invert_eq_some_iff.1 hmiddle).2 p.middle
  have redoSlow := rotorPass_leftInverse (invert_eq_some_iff.1 hslow).2 p.slow
  exact (redoFast.comp (redoMiddle.comp redoSlow)) c

end

theorem State.Holds.respond {s : State} {m : Rotors} {p : Triple} (h : s.Holds m p) (st : Status) (l : Letter) :
    (respond st l s).Holds m p := ⟨h.fast, h.middle, h.slow, h.window⟩

/-- A letter command that answers `OK` passed its checks, so the machine was ready. -/
theorem ready_of_whenReady_ok {x : Letter} {s s' : State} {k : Rotors → Triple → Letter → Outcome}
    (h : whenReady (letterCode x) s k = .next s') (hok : answeredOk s' = true) :
    ∃ m p, s.Holds m p ∧ k m p x = .next s' := by
  obtain ⟨e, rfl⟩ | ⟨m, p, x', hm, hp, hx, hk⟩ := whenReady_next h
  · exact absurd hok (by simp)
  · obtain ⟨hfast, hmiddle, hslow⟩ := rotorsOf_eq_some.1 hm
    obtain rfl : x = x' := Option.some.inj ((letterOfCode_letterCode x).symm.trans hx)
    exact ⟨m, p, ⟨hfast, hmiddle, hslow, hp⟩, hk⟩

section
variable {c : Code} {x : Letter} {s : State} {m : Rotors} {p : Triple} (hs : s.Holds m p) (hc : c.toNat = x.val)
include hs hc

theorem execXfme_of_ready : execXfme c s = .next (respond .ok (transformEnc x p (forwardTables m)) s) :=
  whenReady_of_ready hs hc _

theorem execXfmd_of_ready {t : Tables} (ht : inverseTables? m = some t) :
    execXfmd c s = .next (respond .ok (transformDec x p t) s) :=
  (whenReady_of_ready hs hc _).trans (withInverses_of ht _)

end

end Sys2Proof.Machine
end

section
/-! SUPPORT. `permutation_xfm` in bits: its adders, its lookups and its passes on codes of letters (R147, R150). -/

namespace Sys2Proof.Machine

theorem addBits_letterCode (a b : Letter) : addBits (letterCode a) (letterCode b) = letterCode (add26 a b) := by
  rw [eq_letterCode_iff, add26_val, addBits]
  have hsum : ((letterCode a).setWidth 6 + (letterCode b).setWidth 6 : BitVec 6).toNat = a.val + b.val := by
    simp only [BitVec.toNat_add, BitVec.toNat_setWidth, letterCode_toNat]
    omega
  split <;> bv_omega

theorem subBits_letterCode (a b : Letter) : subBits (letterCode a) (letterCode b) = letterCode (sub26 a b) := by
  rw [eq_letterCode_iff, sub26_val, subBits]
  have ha := letterCode_toNat a
  have hb := letterCode_toNat b
  split <;> bv_omega

theorem entryBits_letterCode (w : Table) (i : Letter) : entryBits (tableBits w) (letterCode i) = letterCode w[i] := by
  rw [entryBits, letterCode_toNat, tableBits, packTable_entry]
  exact Vector.getElem_map _ _

/-- Where one element of a list alone meets a condition, the OR of all that meet it is that element's word. -/
theorem foldl_or_oneHot {α : Type} {n : Nat} {f : α → BitVec n} {P : α → Prop} [DecidablePred P] {l : List α}
    {k : α} (hk : k ∈ l) (hP : ∀ i ∈ l, P i ↔ i = k) :
    l.foldl (fun acc i => acc ||| if P i then f i else 0) 0#n = f k := by
  apply BitVec.eq_of_getLsbD_eq
  intro b _
  rw [getLsbD_foldl_or, BitVec.getLsbD_zero, Bool.false_or, Bool.eq_iff_iff, List.any_eq_true]
  constructor
  · rintro ⟨i, hi, hbit⟩
    split at hbit
    next hPi => rwa [(hP i hi).1 hPi] at hbit
    next => simp at hbit
  · intro hbit
    exact ⟨k, hk, by rwa [if_pos ((hP k hk).2 rfl)]⟩

/-- One comparator alone of the inverse lookup matches: that of the contact `invert` gives (R102, R150). -/
theorem entryBits_eq_letterCode_iff {w v : Table} (h : invert? w = some v) {i j : Letter} :
    entryBits (tableBits w) (letterCode i) = letterCode j ↔ i = v[j] := by
  obtain ⟨hleft, hright⟩ := invert_eq_some_iff.1 h
  rw [entryBits_letterCode]
  constructor
  · intro hcode
    rw [← letterCode_injective hcode, hleft]
  · rintro rfl
    rw [hright]

theorem invEntryBits_letterCode {w v : Table} (h : invert? w = some v) (j : Letter) :
    invEntryBits (tableBits w) (letterCode j) = letterCode v[j] := by
  refine foldl_or_oneHot (List.mem_range.2 v[j].isLt) fun i hi => ?_
  exact (entryBits_eq_letterCode_iff h (i := ⟨i, List.mem_range.1 hi⟩)).trans Fin.ext_iff

theorem passBits_letterCode {lookup : Code → Code} {w : Table}
    (h : ∀ i : Letter, lookup (letterCode i) = letterCode w[i]) (x p : Letter) :
    passBits lookup (letterCode x) (letterCode p) = letterCode (rotorPass x p w) := by
  rw [passBits, addBits_letterCode, h, subBits_letterCode, rotorPass]

end Sys2Proof.Machine
end

section
/-! The obligations about the transform: the rotor pass, the round trip, `XFME` and `XFMD`, and `permutation_xfm` in
bits. -/

namespace Sys2Proof.Machine

/-- Settles O24: the checks pass, and only the response is written. -/
theorem xfmeCommand : Obligations.XfmeCommand := fun _ _ _ _ _ hs hc => execXfme_of_ready hs hc

/-- Settles O25: the inverse tables exist, and each of their entries is the contact that carries the letter. -/
theorem xfmdCommand : Obligations.XfmdCommand := by
  intro c x s m p hs hvalid hc
  obtain ⟨t, ht⟩ := inverseTables_isSome hvalid hs.rotors
  obtain ⟨hfast, hmiddle, hslow⟩ := inverseTables_eq_some.1 ht
  exact ⟨_, _, _, invert_right hslow _, invert_right hmiddle _, invert_right hfast _, execXfmd_of_ready hs hc ht⟩

/-- Settles O48: permutations have inverse tables, and these undo each pass in the reverse order of the rotors. -/
theorem transformRoundTrip : Obligations.TransformRoundTrip := by
  intro m p hfast hmiddle hslow
  obtain ⟨t, ht⟩ := inverseTables_of_isPermutation hfast hmiddle hslow
  exact ⟨t, ht, fun c => ⟨transformDec_transformEnc ht c p, transformEnc_transformDec ht c p⟩⟩

/-- Settles O49: three bijective passes composed, each of them the identity when its table is. -/
theorem transformEncIsBijective : Obligations.TransformEncIsBijective := by
  refine ⟨fun t p hfast hmiddle hslow => ?_, fun t p c hfast hmiddle hslow => ?_⟩
  · exact (rotorPass_bijective hslow p.slow).comp
      ((rotorPass_bijective hmiddle p.middle).comp (rotorPass_bijective hfast p.fast))
  · rw [transformEnc, rotorPass_of_identity hfast, rotorPass_of_identity hmiddle, rotorPass_of_identity hslow]

/-- Settles O50: the first command answered `OK`, so the machine is ready and stays so, and the second undoes the
transform of the first. -/
theorem xfmdUndoesXfme : Obligations.XfmdUndoesXfme := by
  intro x y s s' hvalid hrsp
  have hok : answeredOk s' = true := by simp [answeredOk, hrsp]
  constructor
  · intro h
    obtain ⟨m, p, hs, hk⟩ := ready_of_whenReady_ok h hok
    obtain ⟨t, ht⟩ := inverseTables_isSome hvalid hs.rotors
    cases hk
    cases hrsp
    refine (execXfmd_of_ready (hs.respond .ok _) (letterCode_toNat _) ht).trans ?_
    rw [transformDec_transformEnc ht, respond]
  · intro h
    obtain ⟨m, p, hs, hk⟩ := ready_of_whenReady_ok h hok
    obtain ⟨t, ht, hk⟩ := withInverses_next hk
    cases hk
    cases hrsp
    refine (execXfme_of_ready (hs.respond .ok _) (letterCode_toNat _)).trans ?_
    rw [transformEnc_transformDec ht, respond]

/-- Settles O57: every adder, lookup and pass of the block gives the code of what the function gives. -/
theorem permutationXfmIsTransform : Obligations.PermutationXfmIsTransform := by
  intro c p m t ht
  obtain ⟨hfast, hmiddle, hslow⟩ := inverseTables_eq_some.1 ht
  simp only [permutationXfm, packTriple_fast, packTriple_middle, packTriple_slow]
  constructor
  · simp only [passBits_letterCode (entryBits_letterCode _), transformEnc, forwardTables, Bool.false_eq_true, if_false]
  · simp only [passBits_letterCode (invEntryBits_letterCode hfast),
      passBits_letterCode (invEntryBits_letterCode hmiddle),
      passBits_letterCode (invEntryBits_letterCode hslow), transformDec, if_true]

/-- Settles O47: `shifted` is the sum modulo 26, and the difference is taken modulo 26. -/
theorem rotorPassRule : Obligations.RotorPassRule := by
  intro idx p w shifted hshifted
  obtain rfl : shifted = add26 idx p := Fin.ext (hshifted.trans (add26_val idx p).symm)
  exact sub26_val _ _

end Sys2Proof.Machine
end

section
/-! SUPPORT. A word of any command but `LDROT` by its reserved bits; the commands of the driver family, each by its
checks (R161, R163, R164, R193). -/

namespace Sys2Proof.Machine

/-- Only `LDROT` has a field that can be illegal, so the reserved bits alone decide about every other word (R78). -/
theorem runCommand_of_ne_ldrot {cmd : CmdWord} {o : Op} (h : cmd.extractLsb' 16 4 = opcode o) (ho : o ≠ .ldrot)
    (rotI : RotWord) (s : State) :
    runCommand cmd rotI s =
      if cmd &&& reservedMask (formatOf o) ≠ 0 then .next (raise .illegalCommand s)
      else exec (fieldsOf o cmd rotI) s := by
  have hwf : (fieldsOf o cmd rotI).wellFormed = true := by
    cases o with
    | ldrot => exact absurd rfl ho
    | nop | setw | step | enc | dec | xfme | xfmd => rfl
  rw [runCommand_of_opcode h, ite_not]
  simp only [hwf, and_true]

theorem rotors_of_complete {s : State} (h : s.complete = true) : ∃ m, rotorsOf? s = some m :=
  Option.isSome_iff_exists.1 ((complete_eq_isSome s).symm.trans h)

theorem holds_iff {s : State} {m : Rotors} {p : Triple} : s.Holds m p ↔ rotorsOf? s = some m ∧ s.pos = some p := by
  constructor
  · intro h
    exact ⟨h.rotors, h.window⟩
  · rintro ⟨hm, hp⟩
    obtain ⟨hfast, hmiddle, hslow⟩ := rotorsOf_eq_some.1 hm
    exact ⟨hfast, hmiddle, hslow, hp⟩

theorem windowOf_eq_some {f m w : Code} {p : Triple} :
    windowOf? f m w = some p ↔ f.toNat = p.fast.val ∧ m.toNat = p.middle.val ∧ w.toNat = p.slow.val := by
  simp only [← letterOfCode_eq_some]
  unfold windowOf?
  split
  next hf hm hw =>
    obtain ⟨x, y, z⟩ := p
    simp only [hf, hm, hw, Option.some.injEq, Triple.mk.injEq]
  next hnone =>
    constructor
    · intro h
      cases h
    · rintro ⟨hf, hm, hw⟩
      exact absurd hw (hnone _ _ _ hf hm)

/-- One bad letter is enough for there to be no window setting (R161). -/
theorem windowOf_eq_none {f m w : Code} :
    windowOf? f m w = none ↔ 26 ≤ f.toNat ∨ 26 ≤ m.toNat ∨ 26 ≤ w.toNat := by
  simp only [Option.eq_none_iff_forall_ne_some, ne_eq, windowOf_eq_some]
  constructor
  · intro h
    by_contra hlt
    simp only [not_or, not_le] at hlt
    obtain ⟨hf, hm, hw⟩ := hlt
    exact h ⟨⟨f.toNat, hf⟩, ⟨m.toNat, hm⟩, ⟨w.toNat, hw⟩⟩ ⟨rfl, rfl, rfl⟩
  · rintro h ⟨x, y, z⟩ ⟨hf, hm, hw⟩
    simp only at hf hm hw
    omega

section
variable {f m w : Code} {s : State} {rs : Rotors} (hs : rotorsOf? s = some rs)
include hs

theorem execSetw_of_no_window (h : windowOf? f m w = none) :
    execSetw f m w s = .next (raise .invalidWindowSetting s) := by
  rw [execSetw, whenComplete_of hs, h]

theorem execSetw_of_window {p : Triple} (h : windowOf? f m w = some p) :
    execSetw f m w s = .next (respond .ok 0 (setTriple p s)) := by
  rw [execSetw, whenComplete_of hs, h]

end

/-- Each of the four letter commands begins with the same three checks (R193). -/
theorem exec_letterCommand_checks {c : Code} {i : Instr} (hi : i ∈ [Instr.enc c, .dec c, .xfme c, .xfmd c])
    (s : State) : ∃ k, exec i s = whenReady c s k := by
  simp only [List.mem_cons, List.not_mem_nil, or_false] at hi
  obtain rfl | rfl | rfl | rfl := hi <;> exact ⟨_, rfl⟩

theorem whenReady_of_no_letter {c : Code} {s : State} {m : Rotors} {p : Triple} (hs : s.Holds m p)
    (hc : letterOfCode? c = none) (k : Rotors → Triple → Letter → Outcome) :
    whenReady c s k = .next (raise .invalidLetter s) := by
  rw [whenReady, whenComplete_of hs.rotors, whenWindow_of hs.window, whenLetter, hc]

/-- The opcodes of the letter commands are 4 to 7 (R72). -/
theorem formatOf_eq_l {o : Op} (h : 4 ≤ (opcode o).toNat) : formatOf o = .l := by
  cases o with
  | nop | ldrot | setw | step => exact absurd h (by decide)
  | enc | dec | xfme | xfmd => rfl

section
variable {c : Code} {x : Letter} {s : State} {m : Rotors} {p : Triple} (hs : s.Holds m p) (hc : c.toNat = x.val)
include hs hc

theorem execEnc_of_ready : execEnc c s =
    .next (respond .ok (transformEnc x (advanceBy m p) (forwardTables m)) (setTriple (advanceBy m p) s)) :=
  whenReady_of_ready hs hc _

theorem execDec_of_ready {t : Tables} (ht : inverseTables? m = some t) : execDec c s =
    .next (respond .ok (transformDec x (advanceBy m p) t) (setTriple (advanceBy m p) s)) :=
  (whenReady_of_ready hs hc _).trans (withInverses_of ht _)

end

end Sys2Proof.Machine
end

section
/-! SUPPORT. Commands issued one after another, and what `process` does on a complete machine: its responses, and the
state it leaves (R81, R167). -/

namespace Sys2Proof.Machine

/-- The state once the host's one move is spent, as `issue` places it. -/
def State.withoutMoves (s : State) : State := { s with host := [] }

/-- A command that kept the rotors and wrote the triple leaves the machine ready at that triple. -/
theorem holds_respond_setTriple {s : State} {m : Rotors} (hm : rotorsOf? s = some m) (p : Triple) (l : Letter) :
    (respond .ok l (setTriple p s.withoutMoves)).Holds m p := holds_iff.2 ⟨hm, rfl⟩

/-- What the host issues is the command itself, with no further moves to come. -/
theorem issue_of_wellFormed {i : Instr} (hi : i.wellFormed = true) (s : State) :
    issue i s = exec i s.withoutMoves := by
  have hdecode : decode (encode i).1 (encode i).2 = .ok i := decodeOfEncode i hi
  refine (step_of_move rfl).trans ?_
  simp only [present, presentWords, runMove, runEdge, runCommand, hdecode, Bool.false_eq_true, if_false, if_true,
    State.withoutMoves]

theorem runCommands_cons_of_ok {i : Instr} {s s' : State} {l : Letter} (h : issue i s = .next (respond .ok l s'))
    (rest : List Instr) :
    runCommands (i :: rest) s =
      (⟨.ok, l⟩ :: (runCommands rest (respond .ok l s')).1, (runCommands rest (respond .ok l s')).2) := by
  simp only [runCommands, h, respond_rsp]

/-- The host stops at the first error (R81). -/
theorem runCommands_cons_of_error {i : Instr} {s s' : State} {e : Err} (h : issue i s = .next (raise e s'))
    (rest : List Instr) : runCommands (i :: rest) s = ([⟨.err e, 0⟩], raise e s') := by
  simp only [runCommands, h, raise_rsp]

theorem issue_setwOf_of_complete {s : State} {m : Rotors} (hm : rotorsOf? s = some m) (w : Triple) :
    issue (setwOf w) s = .next (respond .ok 0 (setTriple w s.withoutMoves)) :=
  (issue_of_wellFormed rfl s).trans (execSetw_of_window (s := s.withoutMoves) hm (windowOf_eq_some.2
    ⟨letterCode_toNat _, letterCode_toNat _, letterCode_toNat _⟩))

theorem issue_setwOf_of_incomplete {s : State} (hm : rotorsOf? s = none) (w : Triple) :
    issue (setwOf w) s = .next (raise .incompleteMachine s.withoutMoves) :=
  (issue_of_wellFormed rfl s).trans (whenComplete_of_none (s := s.withoutMoves) hm _)

/-- The transform of a direction at a triple (R142, R143), `t` the inverse tables. -/
def transformOf (d : Direction) (m : Rotors) (t : Tables) (x : Letter) (p : Triple) : Letter :=
  match d with
  | .encrypt => transformEnc x p (forwardTables m)
  | .decrypt => transformDec x p t

/-- The letters that `process` gives from a triple on: one advance before each transform (R163, R164, R167). -/
def processLetters (d : Direction) (m : Rotors) (t : Tables) : Triple → List Letter → List Letter
  | _, [] => []
  | p, x :: rest => transformOf d m t x (advanceBy m p) :: processLetters d m t (advanceBy m p) rest

@[simp] theorem processLetters_length (d : Direction) (m : Rotors) (t : Tables) (p : Triple) (msg : List Letter) :
    (processLetters d m t p msg).length = msg.length := by
  induction msg generalizing p with
  | nil => rfl
  | cons x rest ih => simp only [processLetters, List.length_cons, ih]

section
variable {m : Rotors} {t : Tables} (ht : inverseTables? m = some t)
include ht

/-- Both directions pass through the same triples, so each letter meets the inverse of its own transform (R144). -/
theorem processLetters_decrypt_encrypt (p : Triple) (msg : List Letter) :
    processLetters .decrypt m t p (processLetters .encrypt m t p msg) = msg := by
  induction msg generalizing p with
  | nil => rfl
  | cons x rest ih => simp only [processLetters, transformOf, transformDec_transformEnc ht, ih]

theorem issue_letterCommand {s : State} {p : Triple} (hs : s.Holds m p) (d : Direction) (x : Letter) :
    issue (letterCommand d x) s = .next (respond .ok (transformOf d m t x (advanceBy m p))
      (setTriple (advanceBy m p) s.withoutMoves)) := by
  have hs' : s.withoutMoves.Holds m p := holds_iff.2 ⟨hs.rotors, hs.window⟩
  cases d with
  | encrypt => exact (issue_of_wellFormed rfl s).trans (execEnc_of_ready hs' (letterCode_toNat x))
  | decrypt => exact (issue_of_wellFormed rfl s).trans (execDec_of_ready hs' (letterCode_toNat x) ht)

theorem runCommands_letterCommands (d : Direction) (msg : List Letter) {s : State} {p : Triple} (hs : s.Holds m p) :
    ∃ s', runCommands (msg.map (letterCommand d)) s = ((processLetters d m t p msg).map (Response.mk .ok), s') ∧
      s'.slots = s.slots ∧ s'.pos = some ((advanceBy m)^[msg.length] p) := by
  induction msg generalizing s p with
  | nil => exact ⟨s, rfl, rfl, hs.window⟩
  | cons x rest ih =>
    obtain ⟨s', hrun, hslots, hpos⟩ :=
      ih (holds_respond_setTriple hs.rotors (advanceBy m p) (transformOf d m t x (advanceBy m p)))
    refine ⟨s', ?_, hslots, hpos⟩
    rw [List.map_cons, runCommands_cons_of_ok (issue_letterCommand ht hs d x), hrun]
    rfl

/-- `process` on a complete machine: its responses, the rotors kept, and the triple it leaves (R167, R168). -/
theorem runCommands_processCommands {s : State} (hm : rotorsOf? s = some m) (d : Direction) (w : Triple)
    (msg : List Letter) :
    ∃ s', runCommands (processCommands d w msg) s =
        (⟨.ok, 0⟩ :: (processLetters d m t w msg).map (Response.mk .ok), s') ∧
      s'.slots = s.slots ∧ s'.pos = some ((advanceBy m)^[msg.length] w) := by
  obtain ⟨s', hrun, hslots, hpos⟩ := runCommands_letterCommands ht d msg (holds_respond_setTriple hm w 0)
  refine ⟨s', ?_, hslots, hpos⟩
  rw [processCommands, runCommands_cons_of_ok (issue_setwOf_of_complete hm w), hrun]

theorem processOutput_of_complete {s : State} (hm : rotorsOf? s = some m) (d : Direction) (w : Triple)
    (msg : List Letter) : processOutput d w msg s = processLetters d m t w msg := by
  obtain ⟨s', hrun, -, -⟩ := runCommands_processCommands ht hm d w msg
  rw [processOutput, hrun, List.drop_one, List.tail_cons, List.map_map]
  exact List.map_id _

end

end Sys2Proof.Machine
end

section
/-! The obligations about the driver: `NOP`, `SETW`, `ENC`, `DEC`, the errors of the letter commands, and `process`. -/

namespace Sys2Proof.Machine

/-- Settles O51: the run of `process` on a complete machine, whose inverse tables exist because its tables are valid. -/
theorem processAdvancesOncePerLetter : Obligations.ProcessAdvancesOncePerLetter := by
  intro d w msg s m hm hvalid
  obtain ⟨t, ht⟩ := inverseTables_isSome hvalid hm
  obtain ⟨s', hrun, hslots, hpos⟩ := runCommands_processCommands ht hm d w msg
  rw [processOutput_of_complete ht hm, hrun]
  refine ⟨fun r hr => ?_, processLetters_length d m t w msg, hslots, hpos⟩
  obtain rfl | hr := List.mem_cons.1 hr
  · rfl
  · obtain ⟨l, -, rfl⟩ := List.mem_map.1 hr
    rfl

/-- Settles O52: `SETW` either raises the same error in both states or leaves one and the same state. -/
theorem processIsRestartable : Obligations.ProcessIsRestartable := by
  intro d w msg s t hslots
  have hrotors := rotorsOf_of_slots hslots
  rw [processOutput, processOutput, processCommands]
  cases hs : rotorsOf? s with
  | none =>
    rw [runCommands_cons_of_error (issue_setwOf_of_incomplete hs w),
      runCommands_cons_of_error (issue_setwOf_of_incomplete (hrotors ▸ hs) w)]
  | some m =>
    have same : respond .ok 0 (setTriple w s.withoutMoves) = respond .ok 0 (setTriple w t.withoutMoves) := by
      simp only [respond, setTriple, State.withoutMoves, hslots]
    rw [runCommands_cons_of_ok (issue_setwOf_of_complete hs w),
      runCommands_cons_of_ok (issue_setwOf_of_complete (hrotors ▸ hs) w), same]

/-- Settles O53: encryption leaves the rotors, so decryption starts from the same window and undoes each letter. -/
theorem messageRoundTrip : Obligations.MessageRoundTrip := by
  intro w msg s hcomplete hvalid
  obtain ⟨m, hm⟩ := rotors_of_complete hcomplete
  obtain ⟨t, ht⟩ := inverseTables_isSome hvalid hm
  obtain ⟨s', hrun, hslots, -⟩ := runCommands_processCommands ht hm .encrypt w msg
  have hm' : rotorsOf? s' = some m := (rotorsOf_of_slots hslots).trans hm
  rw [hrun, processOutput_of_complete ht hm, processOutput_of_complete ht hm', processLetters_decrypt_encrypt ht]

/-- Settles O20: the checks in order, and bit 15 as the one reserved bit of its format. -/
theorem setwCommand : Obligations.SetwCommand := by
  refine ⟨fun f m w s => ⟨fun hc => ?_, fun hc hbad => ?_, fun p hc hf hm hw => ?_⟩, fun cmd rotI s hop => ?_⟩
  · exact whenComplete_of_none (rotorsOf_eq_none.2 hc) _
  · obtain ⟨rs, hrs⟩ := rotors_of_complete hc
    exact execSetw_of_no_window hrs (windowOf_eq_none.2 hbad)
  · obtain ⟨rs, hrs⟩ := rotors_of_complete hc
    exact execSetw_of_window hrs (windowOf_eq_some.2 ⟨hf, hm, hw⟩)
  · have hbit : cmd &&& reservedMask (formatOf .setw) ≠ 0 ↔ cmd.getLsbD 15 = true := by
      rw [ne_eq, formatOf, reserved_w, slice_one_eq_zero_iff, Bool.not_eq_false]
    exact (runCommand_of_ne_ldrot (o := .setw) hop (by decide) rotI s).trans (if_congr hbit rfl rfl)

/-- Settles O22: the checks pass, and `transform_enc` is three rotor passes at the new triple. -/
theorem encCommand : Obligations.EncCommand := by
  rintro c x s m p p' hs hc rfl
  exact execEnc_of_ready hs hc

/-- Settles O23: the inverse tables exist, and each of their entries is the contact that carries the letter. -/
theorem decCommand : Obligations.DecCommand := by
  rintro c x s m p p' hs hvalid hc rfl
  obtain ⟨t, ht⟩ := inverseTables_isSome hvalid hs.rotors
  obtain ⟨hfast, hmiddle, hslow⟩ := inverseTables_eq_some.1 ht
  exact ⟨_, _, _, invert_right hslow _, invert_right hmiddle _, invert_right hfast _, execDec_of_ready hs hc ht⟩

/-- Settles O26: the four commands share their checks, and their words share one format. -/
theorem letterCommandErrorsInOrder : Obligations.LetterCommandErrorsInOrder := by
  refine ⟨fun c s i hi => ?_, fun cmd rotI s hop _ hbits => ?_⟩
  · obtain ⟨k, hk⟩ := exec_letterCommand_checks hi s
    rw [hk]
    refine ⟨fun hc => ?_, fun hc hp => ?_, fun hc hp hbad => ?_⟩
    · exact whenComplete_of_none (rotorsOf_eq_none.2 hc) _
    · obtain ⟨m, hm⟩ := rotors_of_complete hc
      exact whenReady_of_no_window hm hp k
    · obtain ⟨m, hm⟩ := rotors_of_complete hc
      obtain ⟨p, hp⟩ := Option.ne_none_iff_exists'.1 hp
      exact whenReady_of_no_letter (holds_iff.2 ⟨hm, hp⟩) (letterOfCode_eq_none.2 hbad) k
  · obtain hres | ⟨o, ho⟩ := reserved_or_opcode cmd
    · exact runCommand_of_reserved hres rotI s
    · rw [ho] at hop
      have hmask : cmd &&& reservedMask (formatOf o) ≠ 0 := by
        rwa [formatOf_eq_l hop, ne_eq, reserved_l]
      rw [runCommand_of_opcode ho, if_neg fun h => hmask h.1, raise, respond]

/-- Settles O40: all three pass their checks and write the advance of the triple, which no letter enters. -/
theorem directionNeverAffectsStepping : Obligations.DirectionNeverAffectsStepping := by
  intro c d s hcomplete hpv hvalid hc hd
  obtain ⟨m, hm⟩ := rotors_of_complete hcomplete
  obtain ⟨p, hp⟩ := Option.isSome_iff_exists.1 hpv
  obtain ⟨t, ht⟩ := inverseTables_isSome hvalid hm
  have hs : s.Holds m p := holds_iff.2 ⟨hm, hp⟩
  exact ⟨_, _, _, execEnc_of_ready (x := ⟨c.toNat, hc⟩) hs rfl,
    execDec_of_ready (x := ⟨d.toNat, hd⟩) hs rfl ht, (stepCommand.1 s).2.2 m p hs, rfl, rfl⟩

/-- Settles O17: no check before it, and a payload that is all reserved bits. -/
theorem nopCommand : Obligations.NopCommand := by
  refine ⟨fun s => rfl, fun cmd rotI s hop => ?_⟩
  exact (runCommand_of_ne_ldrot (o := .nop) hop (by decide) rotI s).trans
    (if_congr (not_congr reserved_n) rfl rfl)

end Sys2Proof.Machine
end

section
/-! SUPPORT. What an error leaves: only the response is written, and no command reads the response it finds (R190,
R191). -/

namespace Sys2Proof.Machine

section
variable {s s' : State} {r : Response} (hrsp : s'.rsp = some r) (herr : r.status ≠ .ok)
include hrsp herr

/-- Every effect but an error answers `OK`. -/
theorem Effect.eq_raise {i : Instr} (h : Effect i s s') : ∃ e, s' = raise e s := by
  cases h with
  | error e => exact ⟨e, rfl⟩
  | answer | load | window | move =>
    cases hrsp
    exact absurd rfl herr

/-- A step that answers an error did nothing else but spend the host's move (R190). -/
theorem StepEffect.eq_raise (h : StepEffect s s') : ∃ e, s' = raise e { s with host := s.host.tail } := by
  cases h with
  | reset | hold => cases hrsp
  | illegal => exact ⟨.illegalCommand, rfl⟩
  | command i _ _ _ he => exact he.eq_raise hrsp herr

theorem runCommand_eq_raise {cmd : CmdWord} {rotI : RotWord} (h : runCommand cmd rotI s = .next s') :
    ∃ e, s' = raise e s := by
  unfold runCommand at h
  split at h
  · exact (exec_next h).eq_raise hrsp herr
  · cases h
    exact ⟨.illegalCommand, rfl⟩

end

/-- No check of a command reads the response, and every answer replaces it. -/
theorem exec_respond (i : Instr) (st : Status) (l : Letter) (s : State) : exec i (respond st l s) = exec i s := by
  cases i with
  | nop | ldrot | setw | step | enc | dec | xfme | xfmd => rfl

theorem runCommand_respond (cmd : CmdWord) (rotI : RotWord) (st : Status) (l : Letter) (s : State) :
    runCommand cmd rotI (respond st l s) = runCommand cmd rotI s := by
  unfold runCommand
  split
  · exact exec_respond _ st l s
  · rfl

theorem runCommand_zero (rotI : RotWord) (s : State) : runCommand 0x00000 rotI s = .next (respond .ok 0 s) := by
  have hdecode : decode 0x00000 rotI = .ok .nop := rfl
  rw [runCommand, hdecode]
  rfl

end Sys2Proof.Machine
end

section
/-! The obligations about exceptions: an error annuls its command and leaves no trace for the next. -/

namespace Sys2Proof.Machine

/-- Settles O31: the step only raised the error, and spent the host's move. -/
theorem errorAnnulsCommand : Obligations.ErrorAnnulsCommand := by
  intro s s' r h hrsp herr
  obtain ⟨e, rfl⟩ := (step_next h).eq_raise hrsp herr
  cases hrsp
  exact ⟨rfl, rfl, fun _ => rfl, rfl, rfl⟩

/-- Settles O32: the error and `NOP` leave states that differ in the response only, which the next command does not
read. -/
theorem errorsAreNotSticky : Obligations.ErrorsAreNotSticky := by
  refine ⟨fun cmd cmd' rotI rotI' nopRot s s' s'' e h hrsp hnop => ?_, fun i j s s' s'' e h hrsp hnop => ?_⟩
  · obtain ⟨e', rfl⟩ := runCommand_eq_raise hrsp nofun h
    rw [runCommand_zero] at hnop
    cases hnop
    rw [raise, runCommand_respond, runCommand_respond]
  · obtain ⟨e', rfl⟩ := (exec_next h).eq_raise hrsp nofun
    cases hnop
    rw [raise, exec_respond, exec_respond]

end Sys2Proof.Machine
end

section
/-! SUPPORT. How a step serves each kind of move, what it makes of the host's moves and of the valid bits, and that it
answers while the handshake holds (R210, R211, R225, R226). -/

namespace Sys2Proof.Machine

theorem step_of_resetsNext {s : State} (h : resetsNext s = true) :
    step s = .next (resetCore { s with host := s.host.tail }) := by
  unfold resetsNext at h
  split at h
  next e rest hhost => rw [step_of_move hhost, runMove, runEdge, if_pos h, hhost, List.tail_cons]
  next hhost => rw [step_of_move hhost, runMove, hhost, List.tail_cons]
  next => cases h

/-- With `rst` low a valid command is accepted (R226). -/
theorem step_of_command {s : State} {e : Edge} {rest : List HostMove} (h : s.host = .edge e :: rest)
    (hrst : e.rst = false) (hvalid : e.cmdValid = true) :
    step s = runCommand e.cmd e.rotI { s with host := rest } := by
  simp only [step_of_move h, runMove, runEdge, hrst, hvalid, Bool.false_eq_true, if_false, if_true]

theorem runCommand_of_ok {cmd : CmdWord} {rotI : RotWord} {i : Instr} (h : decode cmd rotI = .ok i) (s : State) :
    runCommand cmd rotI s = exec i s := by
  rw [runCommand, h]

theorem runCommand_of_error {cmd : CmdWord} {rotI : RotWord} {j : Reject} (h : decode cmd rotI = .error j)
    (s : State) : runCommand cmd rotI s = .next (raise .illegalCommand s) := by
  rw [runCommand, h]

theorem loadSlot_rv (s : State) (k r : Slot) (rot : Rotor) :
    (loadSlot k rot s).rv r = (decide (k = r) || s.rv r) := by
  rw [State.rv, loadSlot_slot]
  by_cases h : k = r <;> simp [h, State.rv]

/-- A command can set an `rv` bit and clears none. -/
theorem Effect.rv_of_rv {i : Instr} {s s' : State} (h : Effect i s s') {r : Slot} (hr : s.rv r = true) :
    s'.rv r = true := by
  cases h with
  | error | answer | window | move => exact hr
  | load _ _ k w n => exact (loadSlot_rv s k r ⟨w, n⟩).trans (by rw [hr, Bool.or_true])

/-- A step that does not sample `rst` high clears no `rv` bit (R210). -/
theorem StepEffect.resets_or_rv {s s' : State} (h : StepEffect s s') {r : Slot} (hr : s.rv r = true) :
    resetsNext s = true ∨ s'.rv r = true := by
  cases h with
  | reset h => exact .inl h
  | hold | illegal => exact .inr hr
  | command i _ _ _ he => exact .inr (he.rv_of_rv hr)

theorem StepEffect.host_eq {s s' : State} (h : StepEffect s s') : s'.host = s.host.tail := by
  cases h with
  | reset | hold | illegal => rfl
  | command i _ _ _ he => exact he.host_eq

theorem runEdge_answers (e : Edge) {s : State} (hs : TablesValid s) : ∃ s', runEdge e s = .next s' := by
  unfold runEdge
  split
  · exact ⟨_, rfl⟩
  · split
    · obtain ⟨s', _, hrun, _⟩ := runCommand_responds e.cmd e.rotI hs
      exact ⟨s', hrun⟩
    · exact ⟨_, rfl⟩

/-- On valid tables only a broken handshake stops a step. -/
theorem step_answers {s : State} (hs : TablesValid s) (hkeeps : breaksNext s = false) : ∃ s', step s = .next s' := by
  cases hhost : s.host with
  | nil => exact ⟨_, step_of_no_move hhost⟩
  | cons m rest =>
    rw [step_of_move hhost]
    cases m with
    | edge e => exact runEdge_answers e (s := { s with host := rest }) hs
    | resetInFlight => exact ⟨_, rfl⟩
    | breach => simp [breaksNext, hhost] at hkeeps

/-- The invariant holds at reset and every step keeps it. -/
theorem Reachable.inv {s : State} (h : Reachable s) : s.Inv := by
  induction h with
  | reset moves => exact resetMeetsInvariant moves
  | step _ hs ih => exact stepKeepsInvariant _ _ ih hs

end Sys2Proof.Machine
end

section
/-! The obligations about reset and the handshake: reset, a command in flight, an accepted command, a broken handshake,
and runs that never stop. -/

namespace Sys2Proof.Machine

/-- Settles O12: the reset state depends on no pin but `rst`, and no other way a step can answer clears an `rv` bit. -/
theorem resetWinsAndAloneClearsSlots : Obligations.ResetWinsAndAloneClearsSlots := by
  refine ⟨fun s h => ⟨_, step_of_resetsNext h, resetCore_rv _, rfl, rfl, rfl⟩, fun s s' r h hset hclear => ?_⟩
  obtain hreset | hkept := (step_next h).resets_or_rv hset
  · exact hreset
  · exact absurd (hkept.symm.trans hclear) (by decide)

/-- Settles O37: the step answers, and every way it can answer spends the move. -/
theorem everyMoveHasAResult : Obligations.EveryMoveHasAResult := by
  intro s hs hkeeps
  obtain ⟨s', h⟩ := step_answers hs hkeeps
  exact ⟨s', h, (step_next h).host_eq⟩

/-- Settles O38: a reachable state meets the invariant, so its tables are valid. -/
theorem runsFromResetNeverStop : Obligations.RunsFromResetNeverStop :=
  fun _ h => ⟨h.inv, step_answers h.inv.1⟩

/-- Settles O13: a command in flight is one of the moves that reset the core. -/
theorem commandInFlightAtResetIsAbandoned : Obligations.CommandInFlightAtResetIsAbandoned := by
  intro s cmd rotI rest h
  have hreset : resetsNext s = true := by rw [resetsNext, h]
  exact ⟨_, step_of_resetsNext hreset, rfl, rfl⟩

/-- Settles O14: the accepted word is run, and what decoding says of it decides how. -/
theorem stepRunsDecodedCommand : Obligations.StepRunsDecodedCommand := by
  intro s e rest h hrst hvalid
  rw [step_of_command h hrst hvalid]
  exact ⟨fun i hi => runCommand_of_ok hi _, fun j hj => runCommand_of_error hj _⟩

/-- Settles O16: a breach is a move of its own, which is refused. -/
theorem brokenHandshakeHasNoMove : Obligations.BrokenHandshakeHasNoMove := fun _ _ _ h => step_of_move h

end Sys2Proof.Machine
end

section
/-! SUPPORT. Bringing the machine up: what a valid `LDROT` leaves, when the machine is complete, and that a ready
machine answers `OK` (R26, R105, R213). -/

namespace Sys2Proof.Machine

theorem complete_iff {s : State} : s.complete = true ↔ ∀ r, s.rv r = true := by
  simp [State.complete, Fin.forall_fin_succ, and_assoc]

theorem slotOf_ofNat : ∀ k : Slot, slotOf? (BitVec.ofNat 2 k.val) = some k := by decide

theorem wellFormed_ldrot (k : Slot) (d : RotorDef) : (Instr.ldrot (BitVec.ofNat 2 k.val) d).wellFormed = true := by
  have ne_three : ∀ k : Slot, (BitVec.ofNat 2 k.val != 3) = true := by decide
  exact ne_three k

@[simp] theorem respond_rv (st : Status) (l : Letter) (s : State) (r : Slot) : (respond st l s).rv r = s.rv r := rfl

/-- A valid rotor definition loads: its slot becomes valid, the others stay as they were, and tables stay valid. -/
theorem issue_ldrot_of_valid {d : RotorDef} (hwiring : validateHw d.entries = true) (hnotch : d.notch.toNat < 26)
    (k : Slot) {s : State} (hs : TablesValid s) :
    ∃ s', issue (.ldrot (BitVec.ofNat 2 k.val) d) s = .next (respond .ok 0 s') ∧ TablesValid s' ∧
      ∀ r, s'.rv r = (decide (k = r) || s.rv r) := by
  obtain ⟨w, hw⟩ := wiringOf_isSome hwiring
  have hn : letterOfCode? d.notch = some ⟨d.notch.toNat, hnotch⟩ := letterOfCode_eq_some.2 rfl
  refine ⟨clearWindow (loadSlot k ⟨w, ⟨d.notch.toNat, hnotch⟩⟩ s.withoutMoves), ?_, ?_, fun r => ?_⟩
  · rw [issue_of_wellFormed (wellFormed_ldrot k d)]
    exact execLdrot_of_valid (slotOf_ofNat k) hw hn _
  · exact loadSlot_tablesValid (s := s.withoutMoves) hs (wiringOf_isPermutation hw)
  · exact loadSlot_rv s.withoutMoves k r _

/-- The five commands that a ready machine answers `OK` for every letter (R213). -/
theorem issue_of_ready {s : State} {m : Rotors} {p : Triple} (hs : s.Holds m p) (hvalid : TablesValid s) {x : Letter}
    {i : Instr} (hi : i ∈ [Instr.enc (letterCode x), .dec (letterCode x), .step, .xfme (letterCode x),
      .xfmd (letterCode x)]) : ∃ l s', issue i s = .next (respond .ok l s') := by
  have hs' : s.withoutMoves.Holds m p := holds_iff.2 ⟨hs.rotors, hs.window⟩
  obtain ⟨t, ht⟩ := inverseTables_isSome hvalid hs.rotors
  have hx := letterCode_toNat x
  simp only [List.mem_cons, List.not_mem_nil, or_false] at hi
  obtain rfl | rfl | rfl | rfl | rfl := hi
  all_goals rw [issue_of_wellFormed rfl]
  · exact ⟨_, _, execEnc_of_ready hs' hx⟩
  · exact ⟨_, _, execDec_of_ready hs' hx ht⟩
  · exact ⟨0, setTriple (advanceBy m p) s.withoutMoves, (stepCommand.1 _).2.2 m p hs'⟩
  · exact ⟨_, _, execXfme_of_ready hs' hx⟩
  · exact ⟨_, _, execXfmd_of_ready hs' hx ht⟩

/-- Three different slots are all the slots. -/
theorem eq_of_three_slots : ∀ {a b c : Slot}, a ≠ b → b ≠ c → a ≠ c → ∀ r, c = r ∨ b = r ∨ a = r := by
  decide

end Sys2Proof.Machine
end

section
/-! The obligation about bringing the machine up after reset. -/

namespace Sys2Proof.Machine

/-- Settles O54: the three loads leave a complete machine with valid tables, `SETW` makes it ready, and then it answers
`OK`. -/
theorem bringUpReadiesMachine : Obligations.BringUpReadiesMachine := by
  intro a b c da db dc w x i hab hbc hac hvalid hi
  obtain ⟨⟨hwa, hna⟩, ⟨hwb, hnb⟩, ⟨hwc, hnc⟩⟩ := by simpa using hvalid
  obtain ⟨s1, hrun1, hv1, hrv1⟩ := issue_ldrot_of_valid hwa hna a (s := State.reset) (resetMeetsInvariant []).1
  obtain ⟨s2, hrun2, hv2, hrv2⟩ := issue_ldrot_of_valid hwb hnb b (s := respond .ok 0 s1) hv1
  obtain ⟨s3, hrun3, hv3, hrv3⟩ := issue_ldrot_of_valid hwc hnc c (s := respond .ok 0 s2) hv2
  have hcomplete : (respond .ok 0 s3).complete = true := complete_iff.2 fun r => by
    simpa [hrv1, hrv2, hrv3] using eq_of_three_slots hab hbc hac r
  obtain ⟨m, hm⟩ := rotors_of_complete hcomplete
  obtain ⟨l, s5, hrun5⟩ := issue_of_ready (holds_respond_setTriple hm w 0) hv3 hi
  rw [runCommands_cons_of_ok hrun1, runCommands_cons_of_ok hrun2, runCommands_cons_of_ok hrun3,
    runCommands_cons_of_ok (issue_setwOf_of_complete hm w), runCommands_cons_of_ok hrun5]
  simp [runCommands, AllOk]

end Sys2Proof.Machine
end

section
/-! SUPPORT. The loader's two lines: the characters of the letters, when a wiring line and a notch line are accepted,
and what is handed over (R101, R219, R220). -/

namespace Sys2Proof.Machine

theorem alphabetIndex_eq_some {c : Char} {x : Letter} : alphabetIndex? c = some x ↔ c = alphabet x := by
  constructor
  · intro h
    unfold alphabetIndex? at h
    split at h
    next hrange =>
      cases h
      have : 65 + (c.toNat - 65) = c.toNat := by omega
      simp only [alphabet, this, Char.ofNat_toNat]
    next => cases h
  · rintro rfl
    exact alphabetIndex_alphabet x

/-- The code of a letter is sent for that letter alone (R101). -/
theorem charCode_eq_letterCode {c : Char} {x : Letter} : charCode c = letterCode x ↔ c = alphabet x := by
  rw [← alphabetIndex_eq_some]
  unfold charCode
  split
  next y hy => rw [hy, Option.some.injEq]; exact ⟨letterCode_injective, congrArg letterCode⟩
  next hnone =>
    have no_letter : ∀ x : Letter, 31 ≠ letterCode x := by decide
    simp only [hnone, reduceCtorEq, iff_false]
    exact no_letter x

theorem charCode_alphabet (x : Letter) : charCode (alphabet x) = letterCode x := charCode_eq_letterCode.2 rfl

/-- A wiring line is accepted with its codes exactly when these pass `validate` (R219). -/
theorem wiringOfLine_eq_some {line : List Char} {t : Vector Code 26} :
    wiringOfLine? line = some t ↔ line.map charCode = t.toList ∧ validateHw t = true := by
  rw [← validate_toList]
  constructor
  · intro h
    unfold wiringOfLine? at h
    split_ifs at h with hlen hvalid
    cases h
    exact ⟨rfl, hvalid⟩
  · rintro ⟨hcodes, hvalid⟩
    have hlen : (line.map charCode).length = 26 := by rw [hcodes, Vector.length_toList]
    rw [wiringOfLine?, dif_pos hlen, if_pos (hcodes ▸ hvalid)]
    exact congrArg some (Vector.toList_inj.1 hcodes)

/-- In an accepted wiring line every letter stands (R101, R219). -/
theorem alphabet_mem_of_wiringOfLine {line : List Char} {t : Vector Code 26} (h : wiringOfLine? line = some t)
    (x : Letter) : alphabet x ∈ line := by
  obtain ⟨hcodes, hvalid⟩ := wiringOfLine_eq_some.1 h
  rw [← validate_toList, ← hcodes] at hvalid
  obtain ⟨c, hc, hx⟩ := (validate_iff.1 hvalid).2 x
  obtain ⟨ch, hch, rfl⟩ := List.mem_map.1 hc
  rwa [← charCode_eq_letterCode.1 (eq_letterCode_iff.2 hx)]

theorem length_of_wiringOfLine {line : List Char} {t : Vector Code 26} (h : wiringOfLine? line = some t) :
    line.length = 26 := by
  simpa using congrArg List.length (wiringOfLine_eq_some.1 h).1

/-- A line that spells a permutation is accepted with the codes of its letters. -/
theorem wiringOfLine_of_permutation {w : Table} (hw : IsPermutation w) :
    wiringOfLine? (w.toList.map alphabet) = some (w.map letterCode) := by
  refine wiringOfLine_eq_some.2 ⟨?_, validateHw_iff_occurs.2 fun j => ?_⟩
  · simp [charCode_alphabet, Function.comp_def, Vector.toList_map]
  · obtain ⟨i, hi, -⟩ := hw j
    exact ⟨i, by simpa [Fin.ext_iff] using hi⟩

theorem notchOfLine_of_blank {cs : List Char} (h : cs.all isBlank = true) : notchOfLine? (some cs) = some 25 :=
  if_pos h

theorem notchOfLine_letter (x : Letter) : notchOfLine? (some [alphabet x]) = some x := by
  simp [notchOfLine?, isBlank_alphabet, alphabetIndex_alphabet]

theorem notchOfLine_of_neither {cs : List Char} (hblank : cs.all isBlank = false)
    (hletter : ∀ x : Letter, cs ≠ [alphabet x]) : notchOfLine? (some cs) = none := by
  unfold notchOfLine?
  simp only [hblank, Bool.false_eq_true, if_false]
  split
  next c =>
    refine Option.eq_none_iff_forall_ne_some.2 fun x hx => hletter x ?_
    rw [alphabetIndex_eq_some.1 hx]
  next => rfl

theorem loadDefinition_of_no_wiring {l1 : List Char} (h : ∀ t, wiringOfLine? l1 ≠ some t) (l2 : Option (List Char)) :
    loadDefinition l1 l2 = .error .invalidWiring := by
  rw [loadDefinition, Option.eq_none_iff_forall_ne_some.2 h]

theorem loadDefinition_of_no_notch {l1 : List Char} {l2 : Option (List Char)} {t : Vector Code 26}
    (ht : wiringOfLine? l1 = some t) (hn : notchOfLine? l2 = none) :
    loadDefinition l1 l2 = .error .invalidNotch := by
  rw [loadDefinition, ht, hn]

theorem loadDefinition_eq_ok {l1 : List Char} {l2 : Option (List Char)} {d : RotorDef} :
    loadDefinition l1 l2 = .ok d ↔
      ∃ n, wiringOfLine? l1 = some d.entries ∧ notchOfLine? l2 = some n ∧ d.notch = letterCode n := by
  constructor
  · intro h
    unfold loadDefinition at h
    split at h
    next => cases h
    next hwiring =>
      split at h
      next => cases h
      next n hn =>
        cases h
        exact ⟨n, hwiring, hn, rfl⟩
  · rintro ⟨n, hwiring, hn, hnotch⟩
    simp only [loadDefinition, hwiring, hn, ← hnotch]

/-- What is handed over has the notch that line 2 gives (R220). -/
theorem notch_of_loadDefinition {l1 : List Char} {l2 : Option (List Char)} {d : RotorDef} {n : Letter}
    (h : loadDefinition l1 l2 = .ok d) (hn : notchOfLine? l2 = some n) : d.notch = letterCode n := by
  obtain ⟨n', -, hn', hnotch⟩ := loadDefinition_eq_ok.1 h
  rw [hnotch, Option.some.inj (hn'.symm.trans hn)]

end Sys2Proof.Machine
end

section
/-! SUPPORT. The text in blocks of five (R223): what one letter adds, without and with the space before it. -/

namespace Sys2Proof.Machine

theorem alphabet_ne_space : ∀ x : Letter, alphabet x ≠ ' ' := by decide

theorem groupFives_cons_of_open {k : Nat} (hk : k ≠ 5) (x : Letter) (rest : List Letter) :
    groupFives k (x :: rest) = alphabet x :: groupFives (k + 1) rest := by
  rw [groupFives, if_neg hk]

theorem groupFives_cons_of_full (x : Letter) (rest : List Letter) :
    groupFives 5 (x :: rest) = ' ' :: alphabet x :: groupFives 1 rest := rfl

theorem groupFives_letters (k : Nat) (l : List Letter) :
    (groupFives k l).filter (fun ch => ch != ' ') = l.map alphabet := by
  induction l generalizing k with
  | nil => rfl
  | cons x rest ih =>
    by_cases hk : k = 5
    · subst hk
      simp [groupFives_cons_of_full, alphabet_ne_space, ih]
    · simp [groupFives_cons_of_open hk, alphabet_ne_space, ih]

/-- With `k` letters already in the open block there is one space for each block that another letter follows. -/
theorem groupFives_length {k : Nat} (hk : k ≤ 5) (l : List Letter) :
    (groupFives k l).length = l.length + (k + l.length - 1) / 5 := by
  induction l generalizing k with
  | nil => simp [groupFives]; omega
  | cons x rest ih =>
    by_cases h5 : k = 5
    · subst h5
      rw [groupFives_cons_of_full, List.length_cons, List.length_cons, ih (by decide), List.length_cons]
      omega
    · rw [groupFives_cons_of_open h5, List.length_cons, ih (by omega), List.length_cons]
      omega

/-- The spaces stand where a block of five and its space end, counted from the start of the open block. -/
theorem groupFives_space_iff {k : Nat} (hk : k ≤ 5) {l : List Letter} {i : Nat} (hi : i < (groupFives k l).length) :
    (groupFives k l)[i]? = some ' ' ↔ (k + i) % 6 = 5 := by
  induction l generalizing k i with
  | nil => cases hi
  | cons x rest ih =>
    by_cases h5 : k = 5
    · subst h5
      rw [groupFives_cons_of_full] at hi ⊢
      match i with
      | 0 => simp
      | 1 => simp [alphabet_ne_space]
      | i + 2 =>
        rw [List.getElem?_cons_succ, List.getElem?_cons_succ, ih (by decide) (by simpa using hi)]
        omega
    · rw [groupFives_cons_of_open h5] at hi ⊢
      cases i with
      | zero => simp [alphabet_ne_space]; omega
      | succ i =>
        rw [List.getElem?_cons_succ, ih (by omega) (by simpa using hi)]
        omega

end Sys2Proof.Machine
end

section
/-! The obligations about the host's text: the loader and the grouped output. -/

namespace Sys2Proof.Machine

/-- Settles O58: a line of letters is accepted exactly when each stands in it, the notch is the one line 2 gives, and
each error has its one cause. -/
theorem loaderRules : Obligations.LoaderRules := by
  refine ⟨fun l1 cs w x hw hl1 => ?_, fun l1 l2 hlen => ?_, fun l1 l2 x hmissing => ?_, fun l1 d h => ?_,
    fun l1 cs d hblank h => ?_, fun l1 cs hblank hletter => ?_, fun l1 x d h => ?_⟩
  · have hwiring : wiringOfLine? l1 = some (w.map letterCode) := hl1 ▸ wiringOfLine_of_permutation hw
    exact ⟨loadDefinition_eq_ok.2 ⟨25, hwiring, rfl, rfl⟩,
      fun hblank => loadDefinition_eq_ok.2 ⟨25, hwiring, notchOfLine_of_blank hblank, rfl⟩,
      loadDefinition_eq_ok.2 ⟨x, hwiring, notchOfLine_letter x, rfl⟩,
      fun hblank hletter => loadDefinition_of_no_notch hwiring (notchOfLine_of_neither hblank hletter)⟩
  · exact loadDefinition_of_no_wiring (fun _ ht => hlen (length_of_wiringOfLine ht)) l2
  · exact loadDefinition_of_no_wiring (fun _ ht => hmissing (alphabet_mem_of_wiringOfLine ht x)) l2
  · exact notch_of_loadDefinition h rfl
  · exact notch_of_loadDefinition h (notchOfLine_of_blank hblank)
  · have hnone := notchOfLine_of_neither hblank hletter
    cases hload : loadDefinition l1 (some cs) with
    | error e => exact ⟨e, rfl⟩
    | ok d =>
      obtain ⟨n, -, hn, -⟩ := loadDefinition_eq_ok.1 hload
      exact absurd (hnone.symm.trans hn) nofun
  · exact notch_of_loadDefinition h (notchOfLine_letter x)

/-- Settles O59: the wiring line passed `validate` and the notch is the code of a letter, so all checks of `LDROT`
pass. -/
theorem loaderHandsOverValidRotors : Obligations.LoaderHandsOverValidRotors := by
  intro l1 l2 d r s hload hr
  obtain ⟨n, hwiring, -, hnotch⟩ := loadDefinition_eq_ok.1 hload
  obtain ⟨k, hk⟩ := slotOf_isSome hr
  obtain ⟨w, hw⟩ := wiringOf_isSome (wiringOfLine_eq_some.1 hwiring).2
  have hn : letterOfCode? d.notch = some n := hnotch ▸ letterOfCode_letterCode n
  exact ⟨_, execLdrot_of_valid hk hw hn s, rfl⟩

/-- Settles O60: the grouped text from a block with no letter yet. -/
theorem cipherTextInFives : Obligations.CipherTextInFives := by
  intro l
  refine ⟨groupFives_letters 0 l, ?_, fun i hi => ?_⟩
  · rw [groupFives_length (Nat.zero_le 5), Nat.zero_add]
  · rw [groupFives_space_iff (Nat.zero_le 5) hi, Nat.zero_add]

end Sys2Proof.Machine
end
